-- ==== Sys2Proof/Word.lean ====
section
/-! DEFINITION. The words of the block: the byte it consumes, the command word it is handed, and the width of its
widest register. All values are unsigned (00_scope.md R7, R10). -/

namespace Sys2Proof

/-- The data unit: one byte (00_scope.md R7). -/
abbrev Byte := BitVec 8

/-- A command word, and the width of C16 (30_encoding.md R46, 10_state.md R15). -/
abbrev Word := BitVec 16

/-- The width of C32 (10_state.md R16). -/
abbrev Word32 := BitVec 32

end Sys2Proof
end

