-- ==== Sys2Proof/Config.lean ====
section
/-! DEFINITION. What is fixed for the one block of the spec: its identity, its units, its escape modes and the width of
a command. There is no optional feature and no parameter that an implementation may choose (00_scope.md R7, R9), and the
spec leaves no value undefined, so there is no free value here. The numeric constants of 00_scope.md R8 stand in
Sys2Proof/Machine/Params.lean. -/

namespace Sys2Proof

/-- The identity string of the block (00_scope.md R2). -/
def Config.identity : String := "IMPULSE71-SUB001-CCE-1"

/-- `CMD_WIDTH`: bits in a command word (00_scope.md R8, 30_encoding.md R46). -/
def Config.cmdWidth : Nat := 16

/-- The five mandatory units and the SYS command group: the six values of the `unit` field that are not reserved
(00_scope.md R3, 30_encoding.md R48). -/
inductive UnitName where
  | sys
  | sum
  | c16
  | c32
  | esc
  | une
deriving DecidableEq, Repr

/-- The escape modes: exactly three, ordered Minimal < ControlChars < All8Bit (44_escape_encoder.md R98; the lowest is
called Minimal by 90_conflicts.md C1). -/
inductive EscMode where
  | minimal
  | controlChars
  | all8Bit
deriving DecidableEq, Repr

end Sys2Proof
end

