-- ==== Sys2Proof/Syntax.lean ====
section
/-! DEFINITION. The 18 commands of the block, one constructor per row of spec/opcode_table.json (30_encoding.md R50).
A format B command carries its byte operand `d`; a format N command carries nothing, the three mode commands included:
the low byte that tells them apart is part of their opcode (R49). -/

namespace Sys2Proof

inductive Instr where
  /-- `NOP`, 40_system.md R61. -/
  | nop
  /-- `RST`, 40_system.md R62. -/
  | rst
  /-- `RDST`, 40_system.md R63. -/
  | rdst
  /-- `SUM.INIT`, 41_checksum.md R68. -/
  | sumInit
  /-- `SUM.UPD d`, 41_checksum.md R69. -/
  | sumUpd (d : Byte)
  /-- `SUM.RD`, 41_checksum.md R70. -/
  | sumRd
  /-- `C16.INIT`, 42_crc16.md R77. -/
  | c16Init
  /-- `C16.UPD d`, 42_crc16.md R78. -/
  | c16Upd (d : Byte)
  /-- `C16.RD`, 42_crc16.md R79. -/
  | c16Rd
  /-- `C32.INIT`, 43_crc32.md R88. -/
  | c32Init
  /-- `C32.UPD d`, 43_crc32.md R89. -/
  | c32Upd (d : Byte)
  /-- `C32.RD`, 43_crc32.md R90. -/
  | c32Rd
  /-- `ESC.MIN`, 44_escape_encoder.md R102. -/
  | escMin
  /-- `ESC.CTL`, 44_escape_encoder.md R103. -/
  | escCtl
  /-- `ESC.A8B`, 44_escape_encoder.md R104. -/
  | escA8b
  /-- `ESC.ENC d`, 44_escape_encoder.md R105. -/
  | escEnc (d : Byte)
  /-- `UNE.INIT`, 45_escape_decoder.md R114. -/
  | uneInit
  /-- `UNE.DEC d`, 45_escape_decoder.md R115. -/
  | uneDec (d : Byte)
deriving DecidableEq, Repr

/-- The unit a command belongs to: the `unit` column of the opcode map (30_encoding.md R48, R50). -/
def Instr.unit : Instr → UnitName
  | .nop => .sys
  | .rst => .sys
  | .rdst => .sys
  | .sumInit => .sum
  | .sumUpd _ => .sum
  | .sumRd => .sum
  | .c16Init => .c16
  | .c16Upd _ => .c16
  | .c16Rd => .c16
  | .c32Init => .c32
  | .c32Upd _ => .c32
  | .c32Rd => .c32
  | .escMin => .esc
  | .escCtl => .esc
  | .escA8b => .esc
  | .escEnc _ => .esc
  | .uneInit => .une
  | .uneDec _ => .une

/-- The mnemonic of a command, as spec/opcode_table.json spells it. -/
def Instr.mnemonic : Instr → String
  | .nop => "NOP"
  | .rst => "RST"
  | .rdst => "RDST"
  | .sumInit => "SUM.INIT"
  | .sumUpd _ => "SUM.UPD"
  | .sumRd => "SUM.RD"
  | .c16Init => "C16.INIT"
  | .c16Upd _ => "C16.UPD"
  | .c16Rd => "C16.RD"
  | .c32Init => "C32.INIT"
  | .c32Upd _ => "C32.UPD"
  | .c32Rd => "C32.RD"
  | .escMin => "ESC.MIN"
  | .escCtl => "ESC.CTL"
  | .escA8b => "ESC.A8B"
  | .escEnc _ => "ESC.ENC"
  | .uneInit => "UNE.INIT"
  | .uneDec _ => "UNE.DEC"

end Sys2Proof
end

