-- ==== Sys2Proof/WellFormed.lean ====
section
/-! DEFINITION. Well-formedness. An instruction term has no ill-formed operand: its only operand is a byte and every byte
is legal (30_encoding.md R49, R53). What can be ill-formed is a command WORD: the spec lists the reserved words by
ranges (R52). Those ranges are written here as the spec lists them, apart from the decoder's fields, so that the decoder
can be held against them. -/

namespace Sys2Proof

/-- `w` lies in the range `lo` to `hi`, both included. -/
def wordIn (lo hi : Nat) (w : Word) : Bool := lo ≤ w.toNat && w.toNat ≤ hi

/-- 30_encoding.md R52, first item: `unit` 6 to 15. -/
def reservedUnit (w : Word) : Bool := wordIn 0x6000 0xFFFF w

/-- 30_encoding.md R52, second and third items: a `func` that is not in the opcode map. -/
def reservedFunc (w : Word) : Bool :=
  wordIn 0x0300 0x0FFF w || wordIn 0x1300 0x1FFF w || wordIn 0x2300 0x2FFF w || wordIn 0x3300 0x3FFF w ||
  wordIn 0x4200 0x4FFF w || wordIn 0x5200 0x5FFF w

/-- 30_encoding.md R52, fourth item: a format N command's `unit` and `func` with a non-zero low byte. -/
def reservedLowByte (w : Word) : Bool :=
  wordIn 0x0001 0x00FF w || wordIn 0x0101 0x01FF w || wordIn 0x0201 0x02FF w || wordIn 0x1001 0x10FF w ||
  wordIn 0x1201 0x12FF w || wordIn 0x2001 0x20FF w || wordIn 0x2201 0x22FF w || wordIn 0x3001 0x30FF w ||
  wordIn 0x3201 0x32FF w || wordIn 0x5001 0x50FF w

/-- 30_encoding.md R52, fifth item: a mode command with a low byte of 3 or more. -/
def reservedMode (w : Word) : Bool := wordIn 0x4003 0x40FF w

/-- A word is reserved when it lies in one of the ranges of 30_encoding.md R52. -/
def wordReserved (w : Word) : Bool := reservedUnit w || reservedFunc w || reservedLowByte w || reservedMode w

/-- A word is well-formed when it is not reserved. -/
def wordWellFormed (w : Word) : Bool := !wordReserved w

end Sys2Proof
end

