-- ==== Sys2Proof/Decode.lean ====
section
/-! DEFINITION. The command encoding (30_encoding.md): the fields of a word, the decoder (total, and naming why a word is
reserved), the encoder, and the opcode map of R50 as data. Decoding reads no state (R51). -/

namespace Sys2Proof

/-- Which clause of 30_encoding.md R52 makes a word reserved. The block behaves alike for all of them (R125). -/
inductive Reserved where
  /-- `unit` is 6 to 15. -/
  | unit
  /-- `func` is not in the unit's rows of the opcode map. -/
  | func
  /-- A format N command with a non-zero low byte. -/
  | lowByte
  /-- A mode command with a low byte of 3 or more. -/
  | mode
deriving DecidableEq, Repr

/-- What a word decodes to: a command, or the name of what makes it reserved. -/
inductive Decoded where
  | instr (i : Instr)
  | reserved (why : Reserved)
deriving DecidableEq, Repr

/-- `unit`, bits 15:12 (30_encoding.md R48). -/
def unitField (w : Word) : BitVec 4 := w.extractLsb' 12 4

/-- `func`, bits 11:8 (30_encoding.md R48). -/
def funcField (w : Word) : BitVec 4 := w.extractLsb' 8 4

/-- The low byte, bits 7:0: `d` in format B, `z` in format N (30_encoding.md R48, R49). -/
def lowByte (w : Word) : Byte := w.extractLsb' 0 8

/-- A format N command: its low byte must be zero (30_encoding.md R48, R53). -/
def decodeN (i : Instr) (z : Byte) : Decoded := if z = 0x00#8 then .instr i else .reserved .lowByte

/-- The three mode commands: `unit` 4, `func` 0, told apart by the low byte (30_encoding.md R50). -/
def decodeMode (z : Byte) : Decoded :=
  if z = 0x00#8 then .instr .escMin
  else if z = 0x01#8 then .instr .escCtl
  else if z = 0x02#8 then .instr .escA8b
  else .reserved .mode

/-- `unit` 0, SYS. -/
def decodeSys (func : Nat) (z : Byte) : Decoded :=
  match func with
  | 0 => decodeN .nop z
  | 1 => decodeN .rst z
  | 2 => decodeN .rdst z
  | _ => .reserved .func

/-- `unit` 1, SUM. -/
def decodeSum (func : Nat) (z : Byte) : Decoded :=
  match func with
  | 0 => decodeN .sumInit z
  | 1 => .instr (.sumUpd z)
  | 2 => decodeN .sumRd z
  | _ => .reserved .func

/-- `unit` 2, C16. -/
def decodeC16 (func : Nat) (z : Byte) : Decoded :=
  match func with
  | 0 => decodeN .c16Init z
  | 1 => .instr (.c16Upd z)
  | 2 => decodeN .c16Rd z
  | _ => .reserved .func

/-- `unit` 3, C32. -/
def decodeC32 (func : Nat) (z : Byte) : Decoded :=
  match func with
  | 0 => decodeN .c32Init z
  | 1 => .instr (.c32Upd z)
  | 2 => decodeN .c32Rd z
  | _ => .reserved .func

/-- `unit` 4, ESC. -/
def decodeEsc (func : Nat) (z : Byte) : Decoded :=
  match func with
  | 0 => decodeMode z
  | 1 => .instr (.escEnc z)
  | _ => .reserved .func

/-- `unit` 5, UNE. -/
def decodeUne (func : Nat) (z : Byte) : Decoded :=
  match func with
  | 0 => decodeN .uneInit z
  | 1 => .instr (.uneDec z)
  | _ => .reserved .func

/-- The decoder, total on all 65536 words (30_encoding.md R51). -/
def decode (w : Word) : Decoded :=
  match (unitField w).toNat with
  | 0 => decodeSys (funcField w).toNat (lowByte w)
  | 1 => decodeSum (funcField w).toNat (lowByte w)
  | 2 => decodeC16 (funcField w).toNat (lowByte w)
  | 3 => decodeC32 (funcField w).toNat (lowByte w)
  | 4 => decodeEsc (funcField w).toNat (lowByte w)
  | 5 => decodeUne (funcField w).toNat (lowByte w)
  | _ => .reserved .unit

/-- The word of a format B command: its match value with the operand in bits 7:0 (30_encoding.md R47, R50). -/
def wordB (pattern : Word) (d : Byte) : Word := pattern ||| d.setWidth 16

/-- The encoder: the one word of each command (30_encoding.md R50, R53, R55). -/
def encode : Instr → Word
  | .nop => 0x0000#16
  | .rst => 0x0100#16
  | .rdst => 0x0200#16
  | .sumInit => 0x1000#16
  | .sumUpd d => wordB 0x1100#16 d
  | .sumRd => 0x1200#16
  | .c16Init => 0x2000#16
  | .c16Upd d => wordB 0x2100#16 d
  | .c16Rd => 0x2200#16
  | .c32Init => 0x3000#16
  | .c32Upd d => wordB 0x3100#16 d
  | .c32Rd => 0x3200#16
  | .escMin => 0x4000#16
  | .escCtl => 0x4001#16
  | .escA8b => 0x4002#16
  | .escEnc d => wordB 0x4100#16 d
  | .uneInit => 0x5000#16
  | .uneDec d => wordB 0x5100#16 d

/-- One row of the opcode map: a word is the row's command when `word and mask == pattern` (30_encoding.md R50).
`build` makes the row's command from the low byte; a format N row ignores it. -/
structure OpcodeRow where
  mnemonic : String
  pattern  : Word
  mask     : Word
  build    : Byte → Instr

/-- The word belongs to the row (30_encoding.md R50). -/
def OpcodeRow.matchesWord (r : OpcodeRow) (w : Word) : Bool := (w &&& r.mask) == r.pattern

/-- The complete opcode map, 18 rows, in the order of 30_encoding.md R50. -/
def opcodeMap : List OpcodeRow :=
  [ ⟨"NOP", 0x0000#16, 0xFFFF#16, fun _ => .nop⟩,
    ⟨"RST", 0x0100#16, 0xFFFF#16, fun _ => .rst⟩,
    ⟨"RDST", 0x0200#16, 0xFFFF#16, fun _ => .rdst⟩,
    ⟨"SUM.INIT", 0x1000#16, 0xFFFF#16, fun _ => .sumInit⟩,
    ⟨"SUM.UPD", 0x1100#16, 0xFF00#16, .sumUpd⟩,
    ⟨"SUM.RD", 0x1200#16, 0xFFFF#16, fun _ => .sumRd⟩,
    ⟨"C16.INIT", 0x2000#16, 0xFFFF#16, fun _ => .c16Init⟩,
    ⟨"C16.UPD", 0x2100#16, 0xFF00#16, .c16Upd⟩,
    ⟨"C16.RD", 0x2200#16, 0xFFFF#16, fun _ => .c16Rd⟩ ] ++
  [ ⟨"C32.INIT", 0x3000#16, 0xFFFF#16, fun _ => .c32Init⟩,
    ⟨"C32.UPD", 0x3100#16, 0xFF00#16, .c32Upd⟩,
    ⟨"C32.RD", 0x3200#16, 0xFFFF#16, fun _ => .c32Rd⟩,
    ⟨"ESC.MIN", 0x4000#16, 0xFFFF#16, fun _ => .escMin⟩,
    ⟨"ESC.CTL", 0x4001#16, 0xFFFF#16, fun _ => .escCtl⟩,
    ⟨"ESC.A8B", 0x4002#16, 0xFFFF#16, fun _ => .escA8b⟩,
    ⟨"ESC.ENC", 0x4100#16, 0xFF00#16, .escEnc⟩,
    ⟨"UNE.INIT", 0x5000#16, 0xFFFF#16, fun _ => .uneInit⟩,
    ⟨"UNE.DEC", 0x5100#16, 0xFF00#16, .uneDec⟩ ]

/-- The command of a decoded word, if it is one. -/
def Decoded.toOption : Decoded → Option Instr
  | .instr i => some i
  | .reserved _ => none

/-- The bits of a table row as one number: the low `nbits` bits of `w`, the bits above being 0. -/
def tableBits (nbits w : Nat) : Nat := w % 2 ^ nbits

/-- The instruction the decoder reads from a word numbered as spec/opcode_table.json numbers it. A command is one 16-bit
word handed over as a value (30_encoding.md R46), so there is no byte order to undo (log entry 6). A number that needs
more than 16 bits is no command word and gets no instruction: DESIGN CHOICE (log entry 14; 70_reset_and_hazards.md R157
gives such a word no move). -/
def decodeTableWord (nbits w : Nat) : Option Instr :=
  if tableBits nbits w < 2 ^ 16 then (decode (BitVec.ofNat 16 (tableBits nbits w))).toOption else none

end Sys2Proof
end

