-- ==== Sys2Proof/Machine/Params.lean ====
section
/-! DEFINITION. The constants of 00_scope.md R8, each under a name of its own, as that rule and
93_implementation_defined.md (G1 to G4) ask, so that an audit finds them in one place. Those that the spec supplies from
general knowledge say so (log entry 8). -/

namespace Sys2Proof.Machine

/-- `ZDLE`, the escape introducer (00_scope.md R8; the source's Glossary). -/
def Params.zdle : Byte := 0x18#8

/-- `SUM_INIT` (00_scope.md R8, 41_checksum.md R67). -/
def Params.sumInit : Byte := 0x00#8

/-- `C16_POLY`: x^16 + x^12 + x^5 + 1 with the x^16 term implied (42_crc16.md R75). UNVERIFIED by the source: G1. -/
def Params.c16Poly : Word := 0x1021#16

/-- `C16_INIT` (42_crc16.md R76). UNVERIFIED by the source: G1. -/
def Params.c16Init : Word := 0x0000#16

/-- `C16_XOROUT` (00_scope.md R8): zero, so that a result is not inverted (42_crc16.md R76). UNVERIFIED by the source: G1. -/
def Params.c16Xorout : Word := 0x0000#16

/-- `C32_POLY_REFLECTED`: the bit reversal of 0x04C11DB7 (43_crc32.md R86). UNVERIFIED by the source: G2. -/
def Params.c32PolyReflected : Word32 := 0xEDB88320#32

/-- `C32_INIT` (43_crc32.md R87). UNVERIFIED by the source: G2. -/
def Params.c32Init : Word32 := 0xFFFFFFFF#32

/-- `C32_XOROUT` (43_crc32.md R87, R90). UNVERIFIED by the source: G2. -/
def Params.c32Xorout : Word32 := 0xFFFFFFFF#32

/-- `ESC_XOR`: the second byte of an escape is the original xor this (44_escape_encoder.md R101). UNVERIFIED by the source: G3. -/
def Params.escXor : Byte := 0x40#8

/-- The bytes `lo` to `hi`, both included. -/
def byteRange (lo hi : Nat) : List Byte := (List.range' lo (hi + 1 - lo)).map (BitVec.ofNat 8)

/-- `ESC_SET(mode)`: the bytes each mode escapes, the membership column of 44_escape_encoder.md R99. UNVERIFIED by the source: G4. -/
def Params.escSet : EscMode → List Byte
  | .minimal => [0x10#8, 0x11#8, 0x13#8, 0x18#8, 0x90#8, 0x91#8, 0x93#8]
  | .controlChars => byteRange 0x00 0x1F ++ byteRange 0x80 0x9F
  | .all8Bit => byteRange 0x00 0x1F ++ byteRange 0x80 0xFF

end Sys2Proof.Machine
end

