-- ==== Sys2Proof/Machine/State.lean ====
section
/-! DEFINITION. The state: the block's 64 bits of architectural state, and what the host has still to issue and has
been answered. -/

namespace Sys2Proof.Machine

/-- The response codes (60_exceptions.md R124). Their numbers are 0, 1 and 2; the value 3 is never returned. -/
inductive RespCode where
  | ok
  | illegal
  | escErr
deriving DecidableEq, Repr

/-- A response: one code and a list of bytes, first byte first (00_scope.md R11, 60_exceptions.md R124). -/
structure Response where
  code  : RespCode
  bytes : List Byte
deriving DecidableEq, Repr

/-- The control and status register, by field (10_state.md R18). Its reserved bits are not stored (R24) and MODE is typed
as three-valued (R19); the byte that RDST returns is `Csr.toByte` (log entry 7). -/
structure Csr where
  /-- Bits 5:4, the escape mode (10_state.md R19). -/
  mode : EscMode
  /-- Bit 2, sticky: the decoder has met a malformed escape (10_state.md R23). -/
  uerr : Bool
  /-- Bit 1, sticky: an illegal word has been issued (10_state.md R22). -/
  ill  : Bool
  /-- Bit 0: the decoder has consumed a ZDLE and awaits its second byte (10_state.md R20). -/
  pend : Bool
deriving DecidableEq, Repr

/-- The architectural state of the block: the 4-tuple (SUM, C16, C32, CSR) (10_state.md R13). -/
structure Block where
  /-- The running sum of bytes mod 256 (10_state.md R14). -/
  sum : Byte
  /-- The CRC-16/XMODEM remainder (10_state.md R15). -/
  c16 : Word
  /-- The raw CRC-32 register, before the final inversion (10_state.md R16). -/
  c32 : Word32
  /-- The control and status register (10_state.md R18). -/
  csr : Csr
deriving DecidableEq, Repr

/-- What comes from outside, between two commands: a command word from the host (70_reset_and_hazards.md R154, R157), or
a hardware reset (R141). -/
inductive HostInput where
  | command (w : Word)
  | hardwareReset
deriving DecidableEq, Repr

/-- The state of the model. `block` is all the state the spec gives the hardware. The other two fields are the MODEL's:
10_state.md R28 calls the words to come and the responses already given parameters of a step, and `step` has no other
place for them (log entries 1 and 13). -/
structure State where
  block     : Block
  /-- What the host will issue, oldest first. -/
  inputs    : List HostInput
  /-- What the block has answered, oldest first. -/
  responses : List Response
deriving DecidableEq, Repr

/-- Faults: none. Every command completes and the block has no stuck state (70_reset_and_hazards.md R155); the two error
events of 60_exceptions.md R123 are next states, not stops (log entry 10). -/
inductive Fault where
deriving DecidableEq, Repr

/-- Refusals. Every row of the opcode table has its meaning, so none is ever answered (log entry 10). -/
inductive Refusal where
  /-- The instruction has no meaning yet. Raised only by an arm of `exec`, and by no arm now. Safe: the model stops where
  the block would go on. -/
  | notModelled (mnemonic : String)
deriving DecidableEq, Repr

/-- What a meaning answers. -/
abbrev Result := Host.Outcome State Fault Refusal

/-- The block right after reset: no bit is unspecified (10_state.md R29, 70_reset_and_hazards.md R142). -/
def Block.reset : Block :=
  { sum := Params.sumInit
    c16 := Params.c16Init
    c32 := Params.c32Init
    csr := { mode := .minimal, uerr := false, ill := false, pend := false } }

/-- The machine right after reset: the block in its reset state, no input queued and no response given
(70_reset_and_hazards.md R142; log entries 5 and 13 for the two lists). -/
def State.reset : State := { block := Block.reset, inputs := [], responses := [] }

end Sys2Proof.Machine
end

