-- ==== Sys2Proof/Machine/Flags.lean ====
section
/-! DEFINITION. The control and status register: its writers, field by field, and the byte it reads as. No command tests
a flag but UNE.DEC (PEND) and ESC.ENC (MODE) (10_state.md R18, R25). -/

namespace Sys2Proof.Machine

/-- The number of an escape mode, as CSR.MODE holds it (10_state.md R19). -/
def modeNumber : EscMode → BitVec 2
  | .minimal => 0#2
  | .controlChars => 1#2
  | .all8Bit => 2#2

/-- The number of a response code (60_exceptions.md R124). -/
def codeNumber : RespCode → BitVec 2
  | .ok => 0#2
  | .illegal => 1#2
  | .escErr => 2#2

/-- The byte CSR reads as: bits 7:6 zero, 5:4 MODE, 3 zero, 2 UERR, 1 ILL, 0 PEND (10_state.md R18, 40_system.md R63). -/
def Csr.toByte (c : Csr) : Byte :=
  0#2 ++ modeNumber c.mode ++ 0#1 ++ BitVec.ofBool c.uerr ++ BitVec.ofBool c.ill ++ BitVec.ofBool c.pend

/-- `CSR.MODE <- m` (44_escape_encoder.md R102 to R104). -/
def State.setMode (m : EscMode) (s : State) : State :=
  { s with block := { s.block with csr := { s.block.csr with mode := m } } }

/-- `CSR.PEND <- p` (45_escape_decoder.md R114, R115). -/
def State.setPend (p : Bool) (s : State) : State :=
  { s with block := { s.block with csr := { s.block.csr with pend := p } } }

/-- `CSR.ILL <- 1` (60_exceptions.md R125). Only a reset clears it (10_state.md R22). -/
def State.setIll (s : State) : State :=
  { s with block := { s.block with csr := { s.block.csr with ill := true } } }

/-- `CSR.UERR <- 1` (60_exceptions.md R126). Only a reset clears it (10_state.md R23). -/
def State.setUerr (s : State) : State :=
  { s with block := { s.block with csr := { s.block.csr with uerr := true } } }

end Sys2Proof.Machine
end

