-- ==== Sys2Proof/Machine/Operands.lean ====
section
/-! DEFINITION. Operands and results: how a byte operand enters a wider register, and in which order the bytes of a
result leave (30_encoding.md R49, 20_memory.md R32 and R44). -/

namespace Sys2Proof.Machine

/-- `zext_16(d)` (00_scope.md R10, 30_encoding.md R49). -/
def zext16 (d : Byte) : Word := d.setWidth 16

/-- `zext_32(d)` (00_scope.md R10, 30_encoding.md R49). -/
def zext32 (d : Byte) : Word32 := d.setWidth 32

/-- The byte of SUM.RD (20_memory.md R32). -/
def sumBytes (v : Byte) : List Byte := [v]

/-- Two bytes, most significant first: `[v[15:8], v[7:0]]` (20_memory.md R32). -/
def bytesHighFirst (v : Word) : List Byte := [v.extractLsb' 8 8, v.extractLsb' 0 8]

/-- Four bytes, least significant first: `[v[7:0], v[15:8], v[23:16], v[31:24]]` (20_memory.md R32). -/
def bytesLowFirst (v : Word32) : List Byte :=
  [v.extractLsb' 0 8, v.extractLsb' 8 8, v.extractLsb' 16 8, v.extractLsb' 24 8]

end Sys2Proof.Machine
end

