-- ==== Sys2Proof/Machine/Ops.lean ====
section
/-! DEFINITION. The operations every meaning is written over: the writes of the accumulators, the response that ends a
command, the reset of the whole block, and the two error events of 60_exceptions.md. The block has no trap: an error event
is what its rule lists and nothing more, so there is no entry to take and no return to make (R129, R131). -/

namespace Sys2Proof.Machine

/-- `SUM <- v`. -/
def State.setSum (v : Byte) (s : State) : State := { s with block := { s.block with sum := v } }

/-- `C16 <- v`. -/
def State.setC16 (v : Word) (s : State) : State := { s with block := { s.block with c16 := v } }

/-- `C32 <- v`. -/
def State.setC32 (v : Word32) (s : State) : State := { s with block := { s.block with c32 := v } }

/-- All of the block to its reset values (40_system.md R62, 70_reset_and_hazards.md R141). What the host holds stays. -/
def State.resetBlock (s : State) : State := { s with block := Block.reset }

/-- `respond(code, bytes)`: ends the command and hands the host its response (00_scope.md R11). -/
def respond (code : RespCode) (bytes : List Byte) (s : State) : Result :=
  .next { s with responses := s.responses ++ [{ code := code, bytes := bytes }] }

/-- The illegal command event (60_exceptions.md R125): `CSR.ILL <- 1; respond(ILLEGAL, [])`, nothing else. -/
def illegalCommand (s : State) : Result := respond .illegal [] s.setIll

/-- The escape error event (60_exceptions.md R126): `CSR.PEND <- 0; CSR.UERR <- 1; respond(ESCERR, [])`, nothing else. -/
def escapeError (s : State) : Result := respond .escErr [] (s.setPend false).setUerr

/-- A hardware reset between commands: an RST that returns no response (70_reset_and_hazards.md R141; log entry 4). -/
def hardwareReset (s : State) : Result := .next s.resetBlock

/-- The host issues nothing: nothing happens (60_exceptions.md R128; log entry 3). -/
def idle (s : State) : Result := .next s

end Sys2Proof.Machine
end

