-- ==== Sys2Proof/Machine/Checksum.lean ====
section
/-! DEFINITION. The SUM unit (41_checksum.md): the 8-bit additive checksum and its three commands. -/

namespace Sys2Proof.Machine

/-- One byte into the sum: `(s + d) mod 256`, the carry lost (41_checksum.md R67, R69). -/
def sum8Step (s d : Byte) : Byte := s + d

/-- `sum8(m)` as the fold of 41_checksum.md R67. -/
def sum8 (m : List Byte) : Byte := m.foldl sum8Step Params.sumInit

/-- `SUM.INIT` (41_checksum.md R68). -/
def execSumInit (s : State) : Result := respond .ok [] (s.setSum Params.sumInit)

/-- `SUM.UPD d` (41_checksum.md R69). -/
def execSumUpd (d : Byte) (s : State) : Result := respond .ok [] (s.setSum (sum8Step s.block.sum d))

/-- `SUM.RD` (41_checksum.md R70). -/
def execSumRd (s : State) : Result := respond .ok (sumBytes s.block.sum) s

end Sys2Proof.Machine
end

