-- ==== Sys2Proof/Machine/Crc16.lean ====
section
/-! DEFINITION. The C16 unit (42_crc16.md): the CRC-16/XMODEM generator and its three commands. -/

namespace Sys2Proof.Machine

/-- One of the eight rounds of `crc16_step`: shift left, and xor the polynomial in when bit 15 was 1 (42_crc16.md R75). -/
def crc16Round (c : Word) : Word :=
  if c.getLsbD 15 then (c <<< 1) ^^^ Params.c16Poly else c <<< 1

/-- `crc16_step(c, d)`: the byte enters the high byte, then eight rounds (42_crc16.md R75). -/
def crc16Step (c : Word) (d : Byte) : Word := Nat.iterate crc16Round 8 (c ^^^ (zext16 d <<< 8))

/-- `crc16(m)` (42_crc16.md R76). -/
def crc16 (m : List Byte) : Word := m.foldl crc16Step Params.c16Init ^^^ Params.c16Xorout

/-- The table of the table-driven form: `T[i] = crc16_step(0x0000, i)` (42_crc16.md R75). -/
def crc16Table (i : Byte) : Word := crc16Step 0x0000#16 i

/-- The table-driven form of `crc16_step` (42_crc16.md R75). -/
def crc16StepByTable (c : Word) (d : Byte) : Word := (c <<< 8) ^^^ crc16Table ((c >>> 8).setWidth 8 ^^^ d)

/-- `C16.INIT` (42_crc16.md R77). -/
def execC16Init (s : State) : Result := respond .ok [] (s.setC16 Params.c16Init)

/-- `C16.UPD d` (42_crc16.md R78). -/
def execC16Upd (d : Byte) (s : State) : Result := respond .ok [] (s.setC16 (crc16Step s.block.c16 d))

/-- `C16.RD`, high byte first (42_crc16.md R79). -/
def execC16Rd (s : State) : Result := respond .ok (bytesHighFirst (s.block.c16 ^^^ Params.c16Xorout)) s

end Sys2Proof.Machine
end

