-- ==== Sys2Proof/Machine/Crc32.lean ====
section
/-! DEFINITION. The C32 unit (43_crc32.md): the CRC-32/ZMODEM generator and its three commands. -/

namespace Sys2Proof.Machine

/-- One of the eight rounds of `crc32_step`: shift right, and xor the polynomial in when bit 0 was 1 (43_crc32.md R86). -/
def crc32Round (c : Word32) : Word32 :=
  if c.getLsbD 0 then (c >>> 1) ^^^ Params.c32PolyReflected else c >>> 1

/-- `crc32_step(c, d)`: the byte enters the low byte, then eight rounds (43_crc32.md R86). -/
def crc32Step (c : Word32) (d : Byte) : Word32 := Nat.iterate crc32Round 8 (c ^^^ zext32 d)

/-- `crc32_raw(m)`: the register before the final inversion (43_crc32.md R87). -/
def crc32Raw (m : List Byte) : Word32 := m.foldl crc32Step Params.c32Init

/-- `crc32(m)` (43_crc32.md R87). -/
def crc32 (m : List Byte) : Word32 := crc32Raw m ^^^ Params.c32Xorout

/-- The table of the table-driven form: `T[i] = crc32_step(0x00000000, i)` (43_crc32.md R86). -/
def crc32Table (i : Byte) : Word32 := crc32Step 0x00000000#32 i

/-- The table-driven form of `crc32_step` (43_crc32.md R86). -/
def crc32StepByTable (c : Word32) (d : Byte) : Word32 := (c >>> 8) ^^^ crc32Table ((c ^^^ zext32 d).setWidth 8)

/-- `C32.INIT`: all ones, not zero (43_crc32.md R88). -/
def execC32Init (s : State) : Result := respond .ok [] (s.setC32 Params.c32Init)

/-- `C32.UPD d` (43_crc32.md R89). -/
def execC32Upd (d : Byte) (s : State) : Result := respond .ok [] (s.setC32 (crc32Step s.block.c32 d))

/-- `C32.RD`: the inversion is made on the way out and the bytes leave low byte first (43_crc32.md R90). -/
def execC32Rd (s : State) : Result := respond .ok (bytesLowFirst (s.block.c32 ^^^ Params.c32Xorout)) s

end Sys2Proof.Machine
end

