-- ==== Sys2Proof/Machine/EscapeDecoder.lean ====
section
/-! DEFINITION. The UNE unit (45_escape_decoder.md): the byte-escape decoder and its two commands. The decoder does not
read CSR.MODE (R117), knows no second bytes but the canonical ones, and drops no literal (R120). -/

namespace Sys2Proof.Machine

/-- `canonical(c)`: 0x40 to 0x5F or 0x80 to 0xFF (45_escape_decoder.md R113). -/
def canonical (c : Byte) : Bool := (c &&& 0xE0#8) == 0x40#8 || c.getLsbD 7

/-- What `une_step` gives: the new pending bit, the outcome and the byte produced, if any (45_escape_decoder.md R111). -/
structure UneOut where
  pend : Bool
  code : RespCode
  byte : Option Byte
deriving DecidableEq, Repr

/-- `une_step(p, d)`, its four cases in order (45_escape_decoder.md R111). -/
def uneStep (p : Bool) (d : Byte) : UneOut :=
  if p = false ∧ d = Params.zdle then { pend := true, code := .ok, byte := none }
  else if p = false then { pend := false, code := .ok, byte := some d }
  else if canonical d then { pend := false, code := .ok, byte := some (d ^^^ Params.escXor) }
  else { pend := false, code := .escErr, byte := none }

/-- What `unescape` gives: the bytes produced in order, the final pending bit, and the positions at which the outcome
was ESCERR (45_escape_decoder.md R112). Positions count from 0 (log entry 11). -/
structure Unescaped where
  bytes  : List Byte
  pend   : Bool
  errors : List Nat
deriving DecidableEq, Repr

/-- The fold of `une_step` over wire bytes, from pending bit `p`, the first byte standing at position `n`. -/
def unescapeFrom (n : Nat) (p : Bool) : List Byte → Unescaped
  | [] => { bytes := [], pend := p, errors := [] }
  | d :: w =>
    let o := uneStep p d
    let r := unescapeFrom (n + 1) o.pend w
    { bytes := o.byte.toList ++ r.bytes
      pend := r.pend
      errors := if o.code = .escErr then n :: r.errors else r.errors }

/-- `unescape(w)` (45_escape_decoder.md R112). -/
def unescape (w : List Byte) : Unescaped := unescapeFrom 0 false w

/-- A wire sequence is well formed when nothing in it is an error and no escape is left open (45_escape_decoder.md R112). -/
def wireWellFormed (w : List Byte) : Bool := (unescape w).errors.isEmpty && !(unescape w).pend

/-- `UNE.INIT`: PEND is cleared, UERR is not (45_escape_decoder.md R114). -/
def execUneInit (s : State) : Result := respond .ok [] (s.setPend false)

/-- `UNE.DEC d` (45_escape_decoder.md R115). -/
def execUneDec (d : Byte) (s : State) : Result :=
  if s.block.csr.pend = false then
    if d = Params.zdle then respond .ok [] (s.setPend true) else respond .ok [d] s
  else if canonical d then respond .ok [d ^^^ Params.escXor] (s.setPend false)
  else escapeError s

end Sys2Proof.Machine
end

