-- ==== Sys2Proof/Machine/EscapeEncoder.lean ====
section
/-! DEFINITION. The ESC unit (44_escape_encoder.md): the byte-escape encoder and its four commands. The encoder has no
memory: it reads CSR.MODE and its operand and writes nothing (R107). -/

namespace Sys2Proof.Machine

/-- `esc_needed(b, mode)`: membership in `ESC_SET(mode)`, and nothing else (44_escape_encoder.md R100). -/
def escNeeded (b : Byte) (mode : EscMode) : Bool := (Params.escSet mode).contains b

/-- `escape1(b, mode)` (44_escape_encoder.md R101). -/
def escape1 (b : Byte) (mode : EscMode) : List Byte :=
  if escNeeded b mode then [Params.zdle, b ^^^ Params.escXor] else [b]

/-- `escape(m, mode)` (44_escape_encoder.md R101). -/
def escape (m : List Byte) (mode : EscMode) : List Byte := m.flatMap (fun b => escape1 b mode)

/-- `ESC.MIN` (44_escape_encoder.md R102). -/
def execEscMin (s : State) : Result := respond .ok [] (s.setMode .minimal)

/-- `ESC.CTL` (44_escape_encoder.md R103). -/
def execEscCtl (s : State) : Result := respond .ok [] (s.setMode .controlChars)

/-- `ESC.A8B` (44_escape_encoder.md R104). -/
def execEscA8b (s : State) : Result := respond .ok [] (s.setMode .all8Bit)

/-- `ESC.ENC d` (44_escape_encoder.md R105). -/
def execEscEnc (d : Byte) (s : State) : Result := respond .ok (escape1 d s.block.csr.mode) s

end Sys2Proof.Machine
end

