-- ==== Sys2Proof/Machine/System.lean ====
section
/-! DEFINITION. The SYS commands (40_system.md): NOP, RST, RDST. -/

namespace Sys2Proof.Machine

/-- `NOP` (40_system.md R61). -/
def execNop (s : State) : Result := respond .ok [] s

/-- `RST` (40_system.md R62). -/
def execRst (s : State) : Result := respond .ok [] s.resetBlock

/-- `RDST` (40_system.md R63). Reading clears nothing (20_memory.md R36). -/
def execRdst (s : State) : Result := respond .ok [s.block.csr.toByte] s

end Sys2Proof.Machine
end

