-- ==== Sys2Proof/Machine/Dispatch.lean ====
section
/-! DEFINITION. One arm per command: what executing a decoded command does. -/

namespace Sys2Proof.Machine

def exec (i : Instr) (s : State) : Host.Outcome State Fault Refusal :=
  match i with
  | .nop => Sys2Proof.Machine.execNop s
  | .rst => Sys2Proof.Machine.execRst s
  | .rdst => Sys2Proof.Machine.execRdst s
  | .sumInit => Sys2Proof.Machine.execSumInit s
  | .sumUpd d => Sys2Proof.Machine.execSumUpd d s
  | .sumRd => Sys2Proof.Machine.execSumRd s
  | .c16Init => Sys2Proof.Machine.execC16Init s
  | .c16Upd d => Sys2Proof.Machine.execC16Upd d s
  | .c16Rd => Sys2Proof.Machine.execC16Rd s
  | .c32Init => Sys2Proof.Machine.execC32Init s
  | .c32Upd d => Sys2Proof.Machine.execC32Upd d s
  | .c32Rd => Sys2Proof.Machine.execC32Rd s
  | .escMin => Sys2Proof.Machine.execEscMin s
  | .escCtl => Sys2Proof.Machine.execEscCtl s
  | .escA8b => Sys2Proof.Machine.execEscA8b s
  | .escEnc d => Sys2Proof.Machine.execEscEnc d s
  | .uneInit => Sys2Proof.Machine.execUneInit s
  | .uneDec d => Sys2Proof.Machine.execUneDec d s

end Sys2Proof.Machine
end

