-- ==== Sys2Proof/Machine/Command.lean ====
section
/-! DEFINITION. One command word, from the word to its effect: decode it and execute the command, or take the illegal
command event (30_encoding.md R51, R52). -/

namespace Sys2Proof.Machine

/-- The block executes one command word (30_encoding.md R51). -/
def executeWord (w : Word) (s : State) : Result :=
  match decode w with
  | .instr i => exec i s
  | .reserved _ => illegalCommand s

/-- One input from outside takes effect (70_reset_and_hazards.md R141, R154). -/
def takeInput (x : HostInput) (s : State) : Result :=
  match x with
  | .command w => executeWord w s
  | .hardwareReset => hardwareReset s

/-- The host hands over a word numbered as spec/opcode_table.json numbers it: it stands before all other inputs. Of a number
of more than 16 bits only the low 16 bits are handed over: DESIGN CHOICE (log entry 14; 70_reset_and_hazards.md R157 gives
a word of another width no move, so no such number is a command of the spec, and `decodeTableWord` reads none from it). -/
def giveTableWord (nbits w : Nat) (s : State) : State :=
  { s with inputs := .command (BitVec.ofNat 16 (tableBits nbits w)) :: s.inputs }

end Sys2Proof.Machine
end

