-- ==== Sys2Proof/Machine/Step.lean ====
section
/-! DEFINITION. One step: the block takes the next input, whole, before the one after it (20_memory.md R39,
70_reset_and_hazards.md R154). It fetches nothing: the host hands it each word (10_state.md R21). -/

namespace Sys2Proof.Machine

/-- One step of the machine. The input taken is gone from the list; the rest is as the host left it. -/
def step (s : State) : Host.Outcome State Fault Refusal :=
  match s.inputs with
  | [] => idle s
  | x :: rest => takeInput x { s with inputs := rest }

/-- `s` with the word of a table row as the next word the host issues, so that the next step executes it. Nothing else
changes (log entry 5; log entry 14 for a number of more than 16 bits). -/
def State.withFetchWord (s : State) (nbits w : Nat) : State := giveTableWord nbits w s

end Sys2Proof.Machine
end

