-- ==== Sys2Proof/Machine/Assembler.lean ====
section
/-! DEFINITION. The assembler syntax and the pseudo-instructions of 30_encoding.md (R55, R56): from one line of text to
the words it stands for. This adds no command to the block. The lexical details the spec leaves open are in log entry 12. -/

namespace Sys2Proof.Machine

/-- One hex digit, either case. -/
def hexValue (c : Char) : Option (BitVec 4) :=
  if 0x30 ≤ c.toNat ∧ c.toNat ≤ 0x39 then some (BitVec.ofNat 4 (c.toNat - 0x30))
  else if 0x41 ≤ c.toNat ∧ c.toNat ≤ 0x46 then some (BitVec.ofNat 4 (c.toNat - 0x41 + 10))
  else if 0x61 ≤ c.toNat ∧ c.toNat ≤ 0x66 then some (BitVec.ofNat 4 (c.toNat - 0x61 + 10))
  else none

/-- One hex digit written, upper case. -/
def hexDigit (v : BitVec 4) : Char :=
  if v.toNat < 10 then Char.ofNat (0x30 + v.toNat) else Char.ofNat (0x41 + (v.toNat - 10))

/-- A byte written `0xHH` (30_encoding.md R55). -/
def byteText (d : Byte) : List Char := ['0', 'x', hexDigit (d.extractLsb' 4 4), hexDigit (d.extractLsb' 0 4)]

/-- The listing form of a word: four hex digits (30_encoding.md R55). -/
def listing (w : Word) : List Char :=
  [hexDigit (w.extractLsb' 12 4), hexDigit (w.extractLsb' 8 4), hexDigit (w.extractLsb' 4 4), hexDigit (w.extractLsb' 0 4)]

/-- A byte operand: `0xHH`, or one printable ASCII character in single quotes (30_encoding.md R55). -/
def parseByte (token : List Char) : Option Byte :=
  match token with
  | ['0', 'x', high, low] =>
    match hexValue high, hexValue low with
    | some a, some b => some (a ++ b)
    | _, _ => none
  | ['\'', c, '\''] => if 0x20 ≤ c.toNat ∧ c.toNat ≤ 0x7E then some (BitVec.ofNat 8 c.toNat) else none
  | _ => none

/-- The token read so far, if there is one. -/
def flushToken (cur : List Char) : List (List Char) := if cur.isEmpty then [] else [cur]

/-- The tokens of a line: separated by spaces or tabs, ended by the line's end or by `;`. A quoted character is a token of
its own, so that `';'` is an operand and not a comment. -/
def lexLine (cur : List Char) : List Char → List (List Char)
  | [] => flushToken cur
  | '\'' :: c :: '\'' :: rest => flushToken cur ++ ['\'', c, '\''] :: lexLine [] rest
  | c :: rest =>
    if c = ';' then flushToken cur
    else if c = ' ' ∨ c = '\t' then flushToken cur ++ lexLine [] rest
    else lexLine (cur ++ [c]) rest

/-- All the operands of a line, or none if one of them is no byte. -/
def parseBytes : List (List Char) → Option (List Byte)
  | [] => some []
  | t :: ts =>
    match parseByte t, parseBytes ts with
    | some b, some bs => some (b :: bs)
    | _, _ => none

/-- `SUM.MSG` (30_encoding.md R56). -/
def sumMsg (m : List Byte) : List Instr := .sumInit :: m.map .sumUpd ++ [.sumRd]

/-- `C16.MSG` (30_encoding.md R56). -/
def c16Msg (m : List Byte) : List Instr := .c16Init :: m.map .c16Upd ++ [.c16Rd]

/-- `C32.MSG` (30_encoding.md R56). -/
def c32Msg (m : List Byte) : List Instr := .c32Init :: m.map .c32Upd ++ [.c32Rd]

/-- `ESC.MSG`, in the mode already set (30_encoding.md R56). -/
def escMsg (m : List Byte) : List Instr := m.map .escEnc

/-- `UNE.MSG` (30_encoding.md R56). -/
def uneMsg (m : List Byte) : List Instr := .uneInit :: m.map .uneDec

/-- The command a mnemonic and its operands stand for: a format N row takes no operand, a format B row exactly one. -/
def commandOf (mnemonic : List Char) (operands : List Byte) : Option Instr :=
  match opcodeMap.find? (fun r => r.mnemonic.toList == mnemonic), operands with
  | some r, [] => if r.mask = 0xFFFF#16 then some (r.build 0x00#8) else none
  | some r, [d] => if r.mask = 0xFFFF#16 then none else some (r.build d)
  | _, _ => none

/-- The commands a mnemonic and its operands stand for: a pseudo-instruction's expansion, or one command. -/
def expand (mnemonic : List Char) (operands : List Byte) : Option (List Instr) :=
  if mnemonic = "SUM.MSG".toList then some (sumMsg operands)
  else if mnemonic = "C16.MSG".toList then some (c16Msg operands)
  else if mnemonic = "C32.MSG".toList then some (c32Msg operands)
  else if mnemonic = "ESC.MSG".toList then some (escMsg operands)
  else if mnemonic = "UNE.MSG".toList then some (uneMsg operands)
  else (commandOf mnemonic operands).map ([·])

/-- The words of one line; none where the line is no command. A blank line or a comment has no words. -/
def assembleLine (line : List Char) : Option (List Word) :=
  match lexLine [] line with
  | [] => some []
  | mnemonic :: operands =>
    match parseBytes operands with
    | some bs => (expand mnemonic bs).map (·.map encode)
    | none => none

/-- The words of a text, line by line; none if any line is no command. -/
def assemble : List (List Char) → Option (List Word)
  | [] => some []
  | l :: ls =>
    match assembleLine l, assemble ls with
    | some ws, some rest => some (ws ++ rest)
    | _, _ => none

/-- The byte operand of a command, if it has one. -/
def operandOf : Instr → Option Byte
  | .sumUpd d => some d
  | .c16Upd d => some d
  | .c32Upd d => some d
  | .escEnc d => some d
  | .uneDec d => some d
  | .nop => none
  | .rst => none
  | .rdst => none
  | .sumInit => none
  | .sumRd => none
  | .c16Init => none
  | .c16Rd => none
  | .c32Init => none
  | .c32Rd => none
  | .escMin => none
  | .escCtl => none
  | .escA8b => none
  | .uneInit => none

/-- Operands as text, each after a space. -/
def operandsText (m : List Byte) : List Char := m.flatMap (fun d => ' ' :: byteText d)

/-- A command as one line of text (30_encoding.md R55). -/
def lineOf (i : Instr) : List Char := i.mnemonic.toList ++ operandsText (operandOf i).toList

end Sys2Proof.Machine
end

