-- ==== Sys2Proof/Machine/Run.lean ====
section
/-! DEFINITION. Runs: what the host issues, and the machine stepped over it (70_reset_and_hazards.md R156). -/

namespace Sys2Proof.Machine

/-- `k` steps, stopping at a fault or a refusal; `Host.Core.run` for this machine. -/
def run : Nat → State → Result
  | 0, s => .next s
  | k + 1, s =>
    match step s with
    | .next t => run k t
    | .fault r => .fault r
    | .refused r => .refused r

/-- The host issues `xs` before whatever else it has still to issue. -/
def State.given (s : State) (xs : List HostInput) : State := { s with inputs := xs ++ s.inputs }

/-- The host issues `xs` and the machine takes one step for each. -/
def runInputs (xs : List HostInput) (s : State) : Result := run xs.length (s.given xs)

/-- The host issues the words of a list of commands. -/
def commandsOf (is : List Instr) : List HostInput := is.map (fun i => .command (encode i))

end Sys2Proof.Machine
end

