-- ==== Sys2Proof/Safety.lean ====
section
/-! DEFINITION. The terms in which claims are made: what a safe run is, the invariant of the machine, what a unit's own
state is, which inputs start a message again, and the polynomials the two CRCs are remainders by. -/

namespace Sys2Proof.Machine

/-- `s` after a command that left the block at `b` and answered `code` and `bytes`. -/
def State.answered (s : State) (b : Block) (code : RespCode) (bytes : List Byte) : State :=
  { block := b, inputs := s.inputs, responses := s.responses ++ [{ code := code, bytes := bytes }] }

/-- A response of a shape the block can return: OK with 0, 1, 2 or 4 bytes, an error with none (20_memory.md R35,
60_exceptions.md R124). -/
def Response.wellShaped (r : Response) : Bool :=
  match r.code with
  | .ok => r.bytes.length == 0 || r.bytes.length == 1 || r.bytes.length == 2 || r.bytes.length == 4
  | .illegal => r.bytes.isEmpty
  | .escErr => r.bytes.isEmpty

/-- The invariant of the machine: every response given has a shape the block can return, and no sticky bit stands without
a response that reported its event (60_exceptions.md R123: each event is reported twice). -/
structure Inv (s : State) : Prop where
  shapes      : ∀ r ∈ s.responses, r.wellShaped = true
  illReported : s.block.csr.ill = true → ∃ r ∈ s.responses, r.code = .illegal
  uerrReported : s.block.csr.uerr = true → ∃ r ∈ s.responses, r.code = .escErr

/-- The safe reading of the end of a run: it is over, and neither sticky bit is set (70_reset_and_hazards.md R156). PEND may
be 1: whether that is an error is the host's business (45_escape_decoder.md R118). -/
def State.cleanEnd (s : State) : Bool := s.inputs.isEmpty && !s.block.csr.ill && !s.block.csr.uerr

/-- A run over `xs` from `s` is safe when it ends clean. -/
def SafeRun (xs : List HostInput) (s : State) : Prop := ∃ t, runInputs xs s = .next t ∧ t.cleanEnd = true

/-- A block with ILL at a given value and all else the same. -/
def Block.withIll (v : Bool) (b : Block) : Block := { b with csr := { b.csr with ill := v } }

/-- A block with UERR at a given value and all else the same. -/
def Block.withUerr (v : Bool) (b : Block) : Block := { b with csr := { b.csr with uerr := v } }

/-- A block with MODE at a given value and all else the same. -/
def Block.withMode (m : EscMode) (b : Block) : Block := { b with csr := { b.csr with mode := m } }

/-- What a unit's own state is (10_state.md R30). -/
inductive UnitView where
  | whole (b : Block)
  | sum (v : Byte)
  | c16 (v : Word)
  | c32 (v : Word32)
  | esc (mode : EscMode)
  | une (pend uerr : Bool)
deriving DecidableEq, Repr

/-- The state a unit's commands touch; for SYS, all of it (10_state.md R30). -/
def unitView : UnitName → Block → UnitView
  | .sys, b => .whole b
  | .sum, b => .sum b.sum
  | .c16, b => .c16 b.c16
  | .c32, b => .c32 b.c32
  | .esc, b => .esc b.csr.mode
  | .une, b => .une b.csr.pend b.csr.uerr

/-- The numbers of bytes a command's response can have: the `response bytes` column of 30_encoding.md R50. -/
def responseLengths : Instr → List Nat
  | .nop => [0]
  | .rst => [0]
  | .rdst => [1]
  | .sumInit => [0]
  | .sumUpd _ => [0]
  | .sumRd => [1]
  | .c16Init => [0]
  | .c16Upd _ => [0]
  | .c16Rd => [2]
  | .c32Init => [0]
  | .c32Upd _ => [0]
  | .c32Rd => [4]
  | .escMin => [0]
  | .escCtl => [0]
  | .escA8b => [0]
  | .escEnc _ => [1, 2]
  | .uneInit => [0]
  | .uneDec _ => [0, 1]

/-- The input puts a unit back to its initialised state: the unit's INIT word, the word of RST (0x0100), or a hardware
reset. -/
def HostInput.restarts (initWord : Word) (x : HostInput) : Bool :=
  x == .command initWord || x == .command 0x0100#16 || x == .hardwareReset

/-- The data byte an input carries for the data command whose high byte is `tag` (30_encoding.md R48, R50). -/
def HostInput.dataByte (tag : Byte) : HostInput → Option Byte
  | .command w => if w.extractLsb' 8 8 = tag then some (w.extractLsb' 0 8) else none
  | .hardwareReset => none

/-- The data bytes a list of inputs carries for one data command, in order. -/
def dataBytes (tag : Byte) (xs : List HostInput) : List Byte := xs.filterMap (HostInput.dataByte tag)

/-- The responses of a list of words, for a command function `f` from state and word to state and response. -/
def foldResponses (f : Block → Word → Block × Response) : Block → List Word → List Response
  | _, [] => []
  | b, w :: ws => (f b w).2 :: foldResponses f (f b w).1 ws

open Polynomial in
/-- A bit vector as a polynomial over GF(2), bit i the coefficient of x^i. -/
noncomputable def bitsPoly {n : Nat} (v : BitVec n) : Polynomial (ZMod 2) :=
  ∑ i ∈ Finset.range n, if v.getLsbD i then (X : Polynomial (ZMod 2)) ^ i else 0

open Polynomial in
/-- A message as a polynomial over GF(2): the first byte's bits are the highest. -/
noncomputable def messagePoly (m : List Byte) : Polynomial (ZMod 2) :=
  m.foldl (fun p b => p * X ^ 8 + bitsPoly b) 0

open Polynomial in
/-- The generator of C16: x^16 + x^12 + x^5 + 1 (42_crc16.md R75). -/
noncomputable def c16Generator : Polynomial (ZMod 2) := X ^ 16 + X ^ 12 + X ^ 5 + 1

open Polynomial in
/-- The generator of C32, term by term (43_crc32.md R86). -/
noncomputable def c32Generator : Polynomial (ZMod 2) :=
  X ^ 32 + X ^ 26 + X ^ 23 + X ^ 22 + X ^ 16 + X ^ 12 + X ^ 11 + X ^ 10 + X ^ 8 + X ^ 7 + X ^ 5 + X ^ 4 + X ^ 2 + X + 1

end Sys2Proof.Machine
end

