-- ==== Sys2Proof/Certificates/Slice0/Obligations.lean ====
section
/-! DEFINITION. The statements for the provers. Each says in its docstring which rule of spec/ it formalises, or that it
rests on a choice of the model. Values and words are written out from the spec, not taken from the model's constants. -/

open Sys2Proof Sys2Proof.Machine

/-! ## Reset and the SYS commands -/

/-- 70_reset_and_hazards.md R142: the reset state, complete, and what the four reads return after reset. -/
def Obligations.ResetLeavesTheResetState : Prop :=
  State.reset.block =
      { sum := 0x00#8, c16 := 0x0000#16, c32 := 0xFFFFFFFF#32,
        csr := { mode := .minimal, uerr := false, ill := false, pend := false } } ∧
    modeNumber State.reset.block.csr.mode = 0#2 ∧
    State.reset.block.csr.toByte = 0x00#8 ∧
    exec .sumRd State.reset = .next (State.reset.answered State.reset.block .ok [0x00#8]) ∧
    exec .c16Rd State.reset = .next (State.reset.answered State.reset.block .ok [0x00#8, 0x00#8]) ∧
    exec .c32Rd State.reset = .next (State.reset.answered State.reset.block .ok [0x00#8, 0x00#8, 0x00#8, 0x00#8]) ∧
    exec .rdst State.reset = .next (State.reset.answered State.reset.block .ok [0x00#8])

/-- 10_state.md R29: after reset and after RST the state is the one listed, and it is what the five initialising commands
write (the sticky bits apart, which they keep). -/
def Obligations.ResetValuesAreWhatTheInitCommandsWrite : Prop :=
  (State.reset.block =
      { sum := 0x00#8, c16 := 0x0000#16, c32 := 0xFFFFFFFF#32,
        csr := { mode := .minimal, uerr := false, ill := false, pend := false } }) ∧
  ∀ s : State,
    exec .rst s = .next (s.answered State.reset.block .ok []) ∧
    ∃ rs, runInputs (commandsOf [.sumInit, .c16Init, .c32Init, .escMin, .uneInit]) s =
      .next { block :=
                { State.reset.block with
                  csr := { State.reset.block.csr with uerr := s.block.csr.uerr, ill := s.block.csr.ill } }
              inputs := s.inputs
              responses := s.responses ++ rs }

/-- 40_system.md R61: NOP, its word, its frame, and its illegal neighbours. -/
def Obligations.NopLeavesTheStateAndAnswersOk : Prop :=
  decode 0x0000#16 = .instr .nop ∧ encode .nop = 0x0000#16 ∧
  (∀ s, exec .nop s = .next (s.answered s.block .ok [])) ∧
  ∀ (w : Word) (s : State), 0x0001 ≤ w.toNat → w.toNat ≤ 0x00FF →
    executeWord w s = .next (s.answered (s.block.withIll true) .illegal [])

/-- 40_system.md R62: RST writes all the state to its reset values; it is the only command that clears a sticky bit, and the
only one that changes more than one unit's state. -/
def Obligations.RstResetsEverythingAndAloneClearsStickyBits : Prop :=
  decode 0x0100#16 = .instr .rst ∧ encode .rst = 0x0100#16 ∧
  (∀ s, exec .rst s = .next (s.answered
      { sum := 0x00#8, c16 := 0x0000#16, c32 := 0xFFFFFFFF#32,
        csr := { mode := .minimal, uerr := false, ill := false, pend := false } } .ok [])) ∧
  ∀ i s, i ≠ .rst → ∃ b code bytes, exec i s = .next (s.answered b code bytes) ∧
    (s.block.csr.ill = true → b.csr.ill = true) ∧ (s.block.csr.uerr = true → b.csr.uerr = true) ∧
    ∃ u, ∀ v, v ≠ .sys → v ≠ u → unitView v b = unitView v s.block

/-- 40_system.md R63: RDST answers the CSR byte, bit by bit, and changes nothing. -/
def Obligations.RdstAnswersTheCsrByte : Prop :=
  decode 0x0200#16 = .instr .rdst ∧ encode .rdst = 0x0200#16 ∧
  ∀ s, ∃ v : Byte, exec .rdst s = .next (s.answered s.block .ok [v]) ∧
    v.extractLsb' 6 2 = 0#2 ∧
    v.extractLsb' 4 2 = (match s.block.csr.mode with | .minimal => 0#2 | .controlChars => 1#2 | .all8Bit => 2#2) ∧
    v.getLsbD 3 = false ∧ v.getLsbD 2 = s.block.csr.uerr ∧ v.getLsbD 1 = s.block.csr.ill ∧
    v.getLsbD 0 = s.block.csr.pend

/-- 10_state.md R24: the byte RDST returns is one of the values 0b00mm0uip with mm in 00, 01, 10, and no other. The reading
that every one of these values is the byte of some state is part of the statement. -/
def Obligations.CsrByteIsOneOfTheLegalValues : Prop :=
  ∀ v : Byte, (∃ s : State, exec .rdst s = .next (s.answered s.block .ok [v])) ↔
    ((v &&& 0xC8#8) = 0x00#8 ∧ (v &&& 0x30#8) ≠ 0x30#8)

/-! ## The SUM unit -/

/-- 41_checksum.md R68. -/
def Obligations.SumInitWritesZero : Prop :=
  decode 0x1000#16 = .instr .sumInit ∧ encode .sumInit = 0x1000#16 ∧
  ∀ s, exec .sumInit s = .next (s.answered { s.block with sum := 0x00#8 } .ok [])

/-- 41_checksum.md R69, over the integers; nothing but SUM changes and no carry is kept. -/
def Obligations.SumUpdAddsModulo256 : Prop :=
  ∀ d : Byte, decode (0x1100#16 + d.setWidth 16) = .instr (.sumUpd d) ∧ encode (.sumUpd d) = 0x1100#16 + d.setWidth 16 ∧
    ∀ s, ∃ v : Byte, exec (.sumUpd d) s = .next (s.answered { s.block with sum := v } .ok []) ∧
      v.toNat = (s.block.sum.toNat + d.toNat) % 256

/-- 41_checksum.md R70. -/
def Obligations.SumRdAnswersTheSum : Prop :=
  decode 0x1200#16 = .instr .sumRd ∧ encode .sumRd = 0x1200#16 ∧
  ∀ s, exec .sumRd s = .next (s.answered s.block .ok [s.block.sum])

/-! ## The C16 unit -/

/-- 42_crc16.md R77. -/
def Obligations.C16InitWritesZero : Prop :=
  decode 0x2000#16 = .instr .c16Init ∧ encode .c16Init = 0x2000#16 ∧
  ∀ s, exec .c16Init s = .next (s.answered { s.block with c16 := 0x0000#16 } .ok [])

/-- 42_crc16.md R78, with the corner cases and the shift-by-shift example of that rule. -/
def Obligations.C16UpdTakesOneCrc16Step : Prop :=
  (∀ d : Byte, decode (0x2100#16 + d.setWidth 16) = .instr (.c16Upd d) ∧ encode (.c16Upd d) = 0x2100#16 + d.setWidth 16 ∧
    ∀ s, exec (.c16Upd d) s = .next (s.answered { s.block with c16 := crc16Step s.block.c16 d } .ok [])) ∧
  crc16Step 0x0000#16 0x00#8 = 0x0000#16 ∧ crc16Step 0x0000#16 0x01#8 = 0x1021#16 ∧
  crc16Step 0x0000#16 0x80#8 = 0x9188#16 ∧ crc16Step 0x0000#16 0xFF#8 = 0x1EF0#16 ∧
  (List.range 9).map (fun k => Nat.iterate crc16Round k 0x0100#16) =
    [0x0100#16, 0x0200#16, 0x0400#16, 0x0800#16, 0x1000#16, 0x2000#16, 0x4000#16, 0x8000#16, 0x1021#16]

/-- 42_crc16.md R79: high byte first. -/
def Obligations.C16RdAnswersHighByteFirst : Prop :=
  decode 0x2200#16 = .instr .c16Rd ∧ encode .c16Rd = 0x2200#16 ∧
  ∀ s, exec .c16Rd s =
    .next (s.answered s.block .ok [s.block.c16.extractLsb' 8 8, s.block.c16.extractLsb' 0 8])

/-! ## The C32 unit -/

/-- 43_crc32.md R88: all ones, not zero. -/
def Obligations.C32InitWritesAllOnes : Prop :=
  decode 0x3000#16 = .instr .c32Init ∧ encode .c32Init = 0x3000#16 ∧
  ∀ s, exec .c32Init s = .next (s.answered { s.block with c32 := 0xFFFFFFFF#32 } .ok [])

/-- 43_crc32.md R89, with the corner cases and the shift-by-shift example of that rule. -/
def Obligations.C32UpdTakesOneCrc32Step : Prop :=
  (∀ d : Byte, decode (0x3100#16 + d.setWidth 16) = .instr (.c32Upd d) ∧ encode (.c32Upd d) = 0x3100#16 + d.setWidth 16 ∧
    ∀ s, exec (.c32Upd d) s = .next (s.answered { s.block with c32 := crc32Step s.block.c32 d } .ok [])) ∧
  crc32Step 0xFFFFFFFF#32 0x00#8 = 0x2DFD1072#32 ∧ crc32Step 0xFFFFFFFF#32 0x01#8 = 0x5AFA20E4#32 ∧
  crc32Step 0xFFFFFFFF#32 0x80#8 = 0xC0459352#32 ∧ crc32Step 0xFFFFFFFF#32 0xFF#8 = 0x00FFFFFF#32 ∧
  crc32Step 0x00000000#32 0x00#8 = 0x00000000#32 ∧
  (∀ m : List Byte, m.length < 4 → crc32Raw m ≠ 0x00000000#32) ∧
  (List.range 9).map (fun k => Nat.iterate crc32Round k 0xFFFFFFFE#32) =
    [0xFFFFFFFE#32, 0x7FFFFFFF#32, 0xD2477CDF#32, 0x849B3D4F#32, 0xAFF51D87#32, 0xBA420DE3#32, 0xB09985D1#32,
     0xB5F441C8#32, 0x5AFA20E4#32]

/-- 43_crc32.md R90: inverted on the way out, low byte first, the register unchanged. -/
def Obligations.C32RdAnswersTheInverseLowByteFirst : Prop :=
  decode 0x3200#16 = .instr .c32Rd ∧ encode .c32Rd = 0x3200#16 ∧
  ∀ s, ∃ v : Word32, v = s.block.c32 ^^^ 0xFFFFFFFF#32 ∧
    exec .c32Rd s = .next (s.answered s.block .ok
      [v.extractLsb' 0 8, v.extractLsb' 8 8, v.extractLsb' 16 8, v.extractLsb' 24 8])

/-- 20_memory.md R45: the numbers a host makes of the bytes of C16.RD and C32.RD are the register and the inverted register. -/
def Obligations.ReadBytesMakeTheNumber : Prop :=
  ∀ s : State,
    (∃ b0 b1 : Byte, exec .c16Rd s = .next (s.answered s.block .ok [b0, b1]) ∧
      b0.toNat * 256 + b1.toNat = s.block.c16.toNat) ∧
    (∃ b0 b1 b2 b3 : Byte, exec .c32Rd s = .next (s.answered s.block .ok [b0, b1, b2, b3]) ∧
      b0.toNat + b1.toNat * 2 ^ 8 + b2.toNat * 2 ^ 16 + b3.toNat * 2 ^ 24 = (s.block.c32 ^^^ 0xFFFFFFFF#32).toNat)

/-! ## The ESC unit -/

/-- 44_escape_encoder.md R102, R103, R104: the three mode commands write MODE and nothing else, and the word after them is
illegal. -/
def Obligations.ModeCommandsWriteModeOnly : Prop :=
  decode 0x4000#16 = .instr .escMin ∧ encode .escMin = 0x4000#16 ∧
  decode 0x4001#16 = .instr .escCtl ∧ encode .escCtl = 0x4001#16 ∧
  decode 0x4002#16 = .instr .escA8b ∧ encode .escA8b = 0x4002#16 ∧
  ∀ s : State,
    exec .escMin s = .next (s.answered { s.block with csr := { s.block.csr with mode := .minimal } } .ok []) ∧
    exec .escCtl s = .next (s.answered { s.block with csr := { s.block.csr with mode := .controlChars } } .ok []) ∧
    exec .escA8b s = .next (s.answered { s.block with csr := { s.block.csr with mode := .all8Bit } } .ok []) ∧
    executeWord 0x4003#16 s = .next (s.answered (s.block.withIll true) .illegal [])

/-- 44_escape_encoder.md R105, with the corner cases of that rule. -/
def Obligations.EscEncAnswersTheEscapedByte : Prop :=
  (∀ d : Byte, decode (0x4100#16 + d.setWidth 16) = .instr (.escEnc d) ∧ encode (.escEnc d) = 0x4100#16 + d.setWidth 16 ∧
    ∀ s, exec (.escEnc d) s = .next (s.answered s.block .ok
      (if d ∈ Params.escSet s.block.csr.mode then [0x18#8, d ^^^ 0x40#8] else [d]))) ∧
  (∀ mode, escape1 0x18#8 mode = [0x18#8, 0x58#8] ∧ escape1 0x58#8 mode = [0x58#8] ∧ escape1 0x7F#8 mode = [0x7F#8]) ∧
  escape1 0x0D#8 .minimal = [0x0D#8] ∧ escape1 0x0D#8 .controlChars = [0x18#8, 0x4D#8] ∧
  escape1 0x0D#8 .all8Bit = [0x18#8, 0x4D#8] ∧
  escape1 0xFF#8 .minimal = [0xFF#8] ∧ escape1 0xFF#8 .controlChars = [0xFF#8] ∧
  escape1 0xFF#8 .all8Bit = [0x18#8, 0xBF#8] ∧ escape1 0xC0#8 .all8Bit = [0x18#8, 0x80#8]

/-- 44_escape_encoder.md R98, R99, R100: the sets by membership, by predicate and by size; they grow with the mode, hold ZDLE
in every mode and never a byte of 0x20 to 0x7F. -/
def Obligations.EscapeSetsAreTheListedSets : Prop :=
  (∀ b mode, escNeeded b mode = true ↔ b ∈ Params.escSet mode) ∧
  (∀ b : Byte, b ∈ Params.escSet .minimal ↔ (b = 0x18#8 ∨ (b &&& 0x7F#8) ∈ [0x10#8, 0x11#8, 0x13#8])) ∧
  (∀ b : Byte, b ∈ Params.escSet .controlChars ↔ (b &&& 0x60#8) = 0x00#8) ∧
  (∀ b : Byte, b ∈ Params.escSet .all8Bit ↔ ((b &&& 0x60#8) = 0x00#8 ∨ b.getLsbD 7 = true)) ∧
  (∀ mode, (Params.escSet mode).Nodup) ∧
  (Params.escSet .minimal).length = 7 ∧ (Params.escSet .controlChars).length = 64 ∧
  (Params.escSet .all8Bit).length = 160 ∧
  Params.escSet .minimal ⊆ Params.escSet .controlChars ∧ Params.escSet .controlChars ⊆ Params.escSet .all8Bit ∧
  (∀ mode, 0x18#8 ∈ Params.escSet mode) ∧
  (∀ (b : Byte) (mode : EscMode), 0x20 ≤ b.toNat → b.toNat ≤ 0x7F → b ∉ Params.escSet mode) ∧
  (∀ mode : EscMode, mode = .minimal ∨ mode = .controlChars ∨ mode = .all8Bit) ∧
  modeNumber .minimal = 0#2 ∧ modeNumber .controlChars = 1#2 ∧ modeNumber .all8Bit = 2#2

/-- 44_escape_encoder.md R106, clause by clause. -/
def Obligations.EscapedOutputHasTheListedProperties : Prop :=
  (∀ (m : List Byte) (mode : EscMode),
    m.length ≤ (escape m mode).length ∧ (escape m mode).length ≤ 2 * m.length ∧
    (escape m mode).count 0x18#8 = m.countP (fun b => escNeeded b mode)) ∧
  (∀ (b : Byte) (mode : EscMode),
    (escape1 b mode = [b] ∧ b ≠ 0x18#8) ∨
    ∃ c : Byte, escape1 b mode = [0x18#8, c] ∧ c ≠ 0x18#8 ∧ ((0x40 ≤ c.toNat ∧ c.toNat ≤ 0x5F) ∨ 0x80 ≤ c.toNat)) ∧
  (∀ (b : Byte) (mode : EscMode), mode ≠ .minimal → escape1 b mode = [b] → (b &&& 0x60#8) ≠ 0x00#8) ∧
  (∀ b c : Byte, escape1 b .controlChars = [0x18#8, c] →
    (0x40 ≤ c.toNat ∧ c.toNat ≤ 0x5F) ∨ (0xC0 ≤ c.toNat ∧ c.toNat ≤ 0xDF)) ∧
  (∀ (m : List Byte) (x : Byte), x ∈ escape m .controlChars → x = 0x18#8 ∨ (x &&& 0x60#8) ≠ 0x00#8) ∧
  (∀ b : Byte, 0xC0 ≤ b.toNat → b.toNat ≤ 0xDF →
    ∃ c : Byte, escape1 b .all8Bit = [0x18#8, c] ∧ 0x80 ≤ c.toNat ∧ c.toNat ≤ 0x9F) ∧
  (∀ b : Byte, 0x80 ≤ b.toNat → ∃ c : Byte, escape1 b .all8Bit = [0x18#8, c] ∧ 0x80 ≤ c.toNat) ∧
  (∀ b : Byte, 0xA0 ≤ b.toNat → escape1 b .minimal = [b] ∧ escape1 b .controlChars = [b]) ∧
  (∀ (m n : List Byte) (mode : EscMode), escape (m ++ n) mode = escape m mode ++ escape n mode)

/-! ## The UNE unit -/

/-- 45_escape_decoder.md R114: PEND is cleared and nothing else, UERR included, changes. -/
def Obligations.UneInitClearsPendOnly : Prop :=
  decode 0x5000#16 = .instr .uneInit ∧ encode .uneInit = 0x5000#16 ∧
  ∀ s, exec .uneInit s = .next (s.answered { s.block with csr := { s.block.csr with pend := false } } .ok [])

/-- 45_escape_decoder.md R115 and 60_exceptions.md R126: the four cases of UNE.DEC, each with its whole next state. -/
def Obligations.UneDecFollowsItsFourCases : Prop :=
  ∀ d : Byte, decode (0x5100#16 + d.setWidth 16) = .instr (.uneDec d) ∧ encode (.uneDec d) = 0x5100#16 + d.setWidth 16 ∧
    ∀ s : State, exec (.uneDec d) s = .next (
      if s.block.csr.pend = false then
        if d = 0x18#8 then s.answered { s.block with csr := { s.block.csr with pend := true } } .ok []
        else s.answered s.block .ok [d]
      else if (0x40 ≤ d.toNat ∧ d.toNat ≤ 0x5F) ∨ 0x80 ≤ d.toNat then
        s.answered { s.block with csr := { s.block.csr with pend := false } } .ok [d ^^^ 0x40#8]
      else
        s.answered { s.block with csr := { s.block.csr with pend := false, uerr := true } } .escErr [])

/-- 45_escape_decoder.md R113: the canonical second bytes are 0x40 to 0x5F and 0x80 to 0xFF, 160 of them, exactly the bytes
b xor 0x40 for b in ESC_SET(2); every second byte the encoder produces is one; 0x18 is not. -/
def Obligations.CanonicalBytesAreTheEncodersSecondBytes : Prop :=
  (∀ c : Byte, canonical c = true ↔ ((0x40 ≤ c.toNat ∧ c.toNat ≤ 0x5F) ∨ 0x80 ≤ c.toNat)) ∧
  (∀ c : Byte, canonical c = true ↔ ∃ b ∈ Params.escSet .all8Bit, c = b ^^^ 0x40#8) ∧
  ((List.range 256).countP (fun n => canonical (BitVec.ofNat 8 n))) = 160 ∧
  (∀ (b : Byte) (mode : EscMode), b ∈ Params.escSet mode → canonical (b ^^^ 0x40#8) = true) ∧
  canonical 0x18#8 = false

/-- 45_escape_decoder.md R116: the round trip, of the functions and of the commands. -/
def Obligations.DecodingAnEscapedMessageGivesItBack : Prop :=
  (∀ (m : List Byte) (mode : EscMode), unescape (escape m mode) = { bytes := m, pend := false, errors := [] }) ∧
  ∀ (m : List Byte) (mode : EscMode) (s : State), ∃ t rs,
    runInputs (commandsOf (.uneInit :: (escape m mode).map .uneDec)) s = .next t ∧ t.inputs = s.inputs ∧
    t.responses = s.responses ++ { code := .ok, bytes := [] } :: rs ∧
    (∀ r ∈ rs, r.code = .ok) ∧ rs.flatMap Response.bytes = m ∧ t.block.csr.pend = false

/-- 45_escape_decoder.md R117: the decoder does not read MODE, and decodes a stream whose bytes were escaped in any mix of
modes. -/
def Obligations.DecoderDoesNotDependOnTheMode : Prop :=
  (∀ (d : Byte) (s : State) (mode : EscMode), ∃ b code bytes,
    exec (.uneDec d) s = .next (s.answered b code bytes) ∧
    exec (.uneDec d) { s with block := s.block.withMode mode } =
      .next ({ s with block := s.block.withMode mode }.answered (b.withMode mode) code bytes)) ∧
  ∀ l : List (Byte × EscMode),
    unescape (l.flatMap (fun p => escape1 p.1 p.2)) = { bytes := l.map Prod.fst, pend := false, errors := [] }

/-- 45_escape_decoder.md R111, R112, R115: UNE.INIT and one UNE.DEC per wire byte compute `unescape`: the bytes produced,
the final PEND, the positions of the errors; UERR ends set exactly when it was set before or some position erred. Positions
count from 0 by the model's choice (log entry 11). -/
def Obligations.DecoderCommandsComputeUnescape : Prop :=
  ∀ (w : List Byte) (s : State), ∃ t rs,
    runInputs (commandsOf (uneMsg w)) s = .next t ∧ t.inputs = s.inputs ∧
    t.responses = s.responses ++ { code := .ok, bytes := [] } :: rs ∧ rs.length = w.length ∧
    rs.flatMap Response.bytes = (unescape w).bytes ∧ t.block.csr.pend = (unescape w).pend ∧
    (unescape w).errors = (List.range w.length).filter (fun k => decide ((rs[k]?.map Response.code) = some .escErr)) ∧
    (t.block.csr.uerr = true ↔ (s.block.csr.uerr = true ∨ (unescape w).errors ≠ []))

/-- 10_state.md R20, with "in the first position of an escape sequence" read as: the run of ZDLE bytes that ends the decoder's
input has odd length (a ZDLE in second position is a malformed second byte, 45_escape_decoder.md R111). Inputs of other units,
reads and illegal words may stand between the UNE.DEC words. -/
def Obligations.PendIsSetExactlyAfterAnOpeningZdle : Prop :=
  ∀ (start : HostInput) (xs : List HostInput) (s : State),
    start.restarts 0x5000#16 = true → (∀ x ∈ xs, x.restarts 0x5000#16 = false) →
    ∃ t, runInputs (start :: xs) s = .next t ∧ t.inputs = s.inputs ∧
      t.block.csr.pend = (unescape (dataBytes 0x51#8 xs)).pend ∧
      (t.block.csr.pend = true ↔
        ((dataBytes 0x51#8 xs).reverse.takeWhile (fun d => d == 0x18#8)).length % 2 = 1)

/-! ## Words, decoding, one step -/

/-- 30_encoding.md R50: one word of each unit, bit by bit from the table's pattern, decodes to its command. -/
def Obligations.WrittenOutWordsDecode : Prop :=
  decode 0b0000000100000000#16 = .instr .rst ∧
  decode 0b0001000100110001#16 = .instr (.sumUpd 0x31#8) ∧
  decode 0b0010001000000000#16 = .instr .c16Rd ∧
  decode 0b0011000111111111#16 = .instr (.c32Upd 0xFF#8) ∧
  decode 0b0100000000000010#16 = .instr .escA8b ∧
  decode 0b0101000100011000#16 = .instr (.uneDec 0x18#8)

/-- 30_encoding.md R51: decoding is the opcode map: a word is a row's command exactly when `word and mask == match`, with the
low byte as operand; the rows are pairwise disjoint; a word that matches no row is reserved. -/
def Obligations.DecodingIsTheOpcodeMap : Prop :=
  opcodeMap.length = 18 ∧
  ∀ w : Word,
    (∀ i, decode w = .instr i ↔
      ∃ r ∈ opcodeMap, (w &&& r.mask) = r.pattern ∧ i = r.build (w.extractLsb' 0 8) ∧ i.mnemonic = r.mnemonic) ∧
    opcodeMap.Pairwise (fun r q => ¬ ((w &&& r.mask) = r.pattern ∧ (w &&& q.mask) = q.pattern)) ∧
    ((∀ r ∈ opcodeMap, (w &&& r.mask) ≠ r.pattern) ↔ ∃ why, decode w = .reserved why)

/-- 30_encoding.md R53: each command has exactly one word, and encoding undoes decoding on every legal word. -/
def Obligations.DecodeAndEncodeAgree : Prop :=
  (∀ i, decode (encode i) = .instr i) ∧ (∀ w i, decode w = .instr i → encode i = w) ∧
  ∀ s : State, executeWord 0x2205#16 s = .next (s.answered (s.block.withIll true) .illegal [])

/-- 30_encoding.md R52 and 60_exceptions.md R125: the words of the listed ranges, and no others, are reserved, and each of them
executes as the illegal command event, which changes ILL and nothing else. -/
def Obligations.ReservedWordsTakeTheIllegalCommandEvent : Prop :=
  (∀ w : Word, wordReserved w = true ↔ ¬ ∃ i, decode w = .instr i) ∧
  ∀ (w : Word) (rest : List HostInput) (s : State), wordReserved w = true →
    step { s with inputs := .command w :: rest } =
      .next { block := { s.block with csr := { s.block.csr with ill := true } }
              inputs := rest
              responses := s.responses ++ [{ code := .illegal, bytes := [] }] }

/-- 30_encoding.md R50, R52: 1293 legal words, 64243 reserved ones. -/
def Obligations.LegalWordsAreCounted : Prop :=
  ((Finset.range 65536).filter (fun n => (decode (BitVec.ofNat 16 n)).toOption.isSome = true)).card = 1293 ∧
  ((Finset.range 65536).filter (fun n => wordReserved (BitVec.ofNat 16 n) = true)).card = 64243

/-- 30_encoding.md R51, 70_reset_and_hazards.md R154: the step takes the next word away and runs the command it decodes to,
which sees the state otherwise as it was. How the words come to stand there is the model's choice (log entries 1 and 5). -/
def Obligations.StepRunsTheDecodedCommand : Prop :=
  (∀ (w : Word) (i : Instr) (rest : List HostInput) (s : State), decode w = .instr i →
    step { s with inputs := .command w :: rest } = exec i { s with inputs := rest }) ∧
  (∀ (i : Instr) (rest : List HostInput) (s : State),
    step { s with inputs := .command (encode i) :: rest } = exec i { s with inputs := rest }) ∧
  ∀ (i : Instr) (s : State), step (s.withFetchWord 16 (encode i).toNat) = exec i s

/-- The model's choice, log entry 4 (70_reset_and_hazards.md R141 allows it): a hardware reset leaves the block as RST does and
returns no response. And log entry 3: where the host issues nothing, nothing happens (60_exceptions.md R128). -/
def Obligations.StepOnAResetOrOnNothing : Prop :=
  (∀ (rest : List HostInput) (s : State), step { s with inputs := .hardwareReset :: rest } =
    .next { block :=
              { sum := 0x00#8, c16 := 0x0000#16, c32 := 0xFFFFFFFF#32,
                csr := { mode := .minimal, uerr := false, ill := false, pend := false } }
            inputs := rest
            responses := s.responses }) ∧
  ∀ s : State, step { s with inputs := [] } = .next { s with inputs := [] }

/-! ## Rules of the whole machine -/

/-- 10_state.md R13 and 20_memory.md R39: there is one function from (state, word) to (state, response), and the state and the
responses of any list of words are its left fold, whatever the host side holds. -/
def Obligations.RunsAreLeftFoldsOfOneCommandFunction : Prop :=
  ∃ f : Block → Word → Block × Response, ∀ (ws : List Word) (s : State),
    runInputs (ws.map .command) s =
      .next { block := ws.foldl (fun b w => (f b w).1) s.block
              inputs := s.inputs
              responses := s.responses ++ foldResponses f s.block ws }

/-- 10_state.md R30: a command of one unit reads and writes only that unit's state: from two states that agree on it, the
response and the unit's state after are the same, and every other unit's state, and ILL, stay as they were. -/
def Obligations.UnitsTouchOnlyTheirOwnState : Prop :=
  ∀ (i : Instr) (s t : State), i.unit ≠ .sys → unitView i.unit s.block = unitView i.unit t.block →
    ∃ b c code bytes, exec i s = .next (s.answered b code bytes) ∧ exec i t = .next (t.answered c code bytes) ∧
      unitView i.unit b = unitView i.unit c ∧ b.csr.ill = s.block.csr.ill ∧
      ∀ u, u ≠ .sys → u ≠ i.unit → unitView u b = unitView u s.block

/-- 10_state.md R30: commands of different units can be interleaved in any way: in either order they leave the same block and
each answers the same. -/
def Obligations.CommandsOfDifferentUnitsCommute : Prop :=
  ∀ (i j : Instr) (s : State), i.unit ≠ .sys → j.unit ≠ .sys → i.unit ≠ j.unit →
    ∃ b ri rj,
      runInputs (commandsOf [i, j]) s = .next { block := b, inputs := s.inputs, responses := s.responses ++ [ri, rj] } ∧
      runInputs (commandsOf [j, i]) s = .next { block := b, inputs := s.inputs, responses := s.responses ++ [rj, ri] }

/-- 10_state.md R22: ILL is set by every illegal word and by nothing else, stays set until RST or reset, and changes nothing
that a command does (RDST, 0x0200, reads it). -/
def Obligations.IllIsSetByIllegalWordsAloneAndIsSticky : Prop :=
  (∀ (x : HostInput) (rest : List HostInput) (s : State), ∃ t, step { s with inputs := x :: rest } = .next t ∧
    (t.block.csr.ill = true ↔
      ((∃ w, x = .command w ∧ wordReserved w = true) ∨
        (s.block.csr.ill = true ∧ x ≠ .command 0x0100#16 ∧ x ≠ .hardwareReset)))) ∧
  ∀ (w : Word) (v : Bool) (s : State), w ≠ 0x0200#16 → ∃ b code bytes v',
    executeWord w s = .next (s.answered b code bytes) ∧
    executeWord w { s with block := s.block.withIll v } =
      .next ({ s with block := s.block.withIll v }.answered (b.withIll v') code bytes)

/-- 10_state.md R23: UERR is set by UNE.DEC (0x51dd) on a non-canonical byte after a ZDLE and by nothing else, stays set until
RST or reset, UNE.INIT included, and changes nothing that a command does (RDST, 0x0200, reads it). -/
def Obligations.UerrIsSetByMalformedEscapesAloneAndIsSticky : Prop :=
  (∀ (x : HostInput) (rest : List HostInput) (s : State), ∃ t, step { s with inputs := x :: rest } = .next t ∧
    (t.block.csr.uerr = true ↔
      ((∃ d, x = .command (0x5100#16 + BitVec.setWidth 16 d) ∧ s.block.csr.pend = true ∧ canonical d = false) ∨
        (s.block.csr.uerr = true ∧ x ≠ .command 0x0100#16 ∧ x ≠ .hardwareReset)))) ∧
  ∀ (w : Word) (v : Bool) (s : State), w ≠ 0x0200#16 → ∃ b code bytes v',
    executeWord w s = .next (s.answered b code bytes) ∧
    executeWord w { s with block := s.block.withUerr v } =
      .next ({ s with block := s.block.withUerr v }.answered (b.withUerr v') code bytes)

/-- 60_exceptions.md R127: no legal command but UNE.DEC ever returns a code other than OK, and UNE.DEC can. -/
def Obligations.OnlyUneDecCanReturnAnError : Prop :=
  (∀ (i : Instr) (s : State), (∀ d, i ≠ .uneDec d) → ∃ b bytes, exec i s = .next (s.answered b .ok bytes)) ∧
  ∃ (d : Byte) (s : State) (b : Block), exec (.uneDec d) s = .next (s.answered b .escErr [])

/-- 60_exceptions.md R123 and R124: the two error events, each reported twice, in the response code and in a sticky bit; the
codes' numbers; an error carries no bytes. -/
def Obligations.ErrorsAreReportedTwice : Prop :=
  (codeNumber .ok = 0#2 ∧ codeNumber .illegal = 1#2 ∧ codeNumber .escErr = 2#2 ∧ ∀ c, codeNumber c ≠ 3#2) ∧
  ∀ (w : Word) (s : State), ∃ b code bytes, executeWord w s = .next (s.answered b code bytes) ∧
    (code = .illegal ↔ wordReserved w = true) ∧
    (code = .escErr ↔ (w.extractLsb' 8 8 = 0x51#8 ∧ s.block.csr.pend = true ∧ canonical (w.extractLsb' 0 8) = false)) ∧
    (code = .illegal → b = s.block.withIll true) ∧
    (code = .escErr → b = { s.block with csr := { s.block.csr with pend := false, uerr := true } }) ∧
    (code = .ok → b.csr.ill = true → s.block.csr.ill = true) ∧
    (code = .ok → b.csr.uerr = true → s.block.csr.uerr = true) ∧
    (code ≠ .ok → bytes = [])

/-- 20_memory.md R35, 30_encoding.md R50: how many bytes each command's response can have, and each of those numbers does
occur. -/
def Obligations.ResponsesHaveTheListedLengths : Prop :=
  (∀ (i : Instr) (s : State), ∃ b code bytes, exec i s = .next (s.answered b code bytes) ∧
    bytes.length ∈ responseLengths i) ∧
  (∀ n ∈ [1, 2], ∃ d s b bytes, exec (.escEnc d) s = .next (s.answered b .ok bytes) ∧ bytes.length = n) ∧
  ∀ n ∈ [0, 1], ∃ d s b bytes, exec (.uneDec d) s = .next (s.answered b .ok bytes) ∧ bytes.length = n

/-- 20_memory.md R36: reads and NOP change no state and answer the same again; INIT, RST and the mode commands are idempotent;
ESC.ENC changes no state. -/
def Obligations.ReadsChangeNothingAndInitsAreIdempotent : Prop :=
  (∀ i ∈ [Instr.sumRd, .c16Rd, .c32Rd, .rdst, .nop], ∀ s : State, ∃ bytes,
    exec i s = .next (s.answered s.block .ok bytes) ∧
    exec i (s.answered s.block .ok bytes) = .next ((s.answered s.block .ok bytes).answered s.block .ok bytes)) ∧
  (∀ i ∈ [Instr.sumInit, .c16Init, .c32Init, .uneInit, .rst, .escMin, .escCtl, .escA8b], ∀ s : State, ∃ b,
    exec i s = .next (s.answered b .ok []) ∧
    exec i (s.answered b .ok []) = .next ((s.answered b .ok []).answered b .ok [])) ∧
  ∀ (d : Byte) (s : State), ∃ bytes, exec (.escEnc d) s = .next (s.answered s.block .ok bytes)

/-- 70_reset_and_hazards.md R155: every command completes; the block cannot hang, wait or refuse; it has no stuck state. So
every step on a command answers a next state and takes the input away, and every run comes to its end. Two clauses are the
model's choice and not R155's: that a step with no input answers a next state too (log entry 3, on 60_exceptions.md R128),
and that a hardware reset is an input that takes a step and adds no response to the count (log entry 4, which R141
allows). -/
def Obligations.EveryStepCompletesAndEveryRunEnds : Prop :=
  (∀ s : State, ∃ t, step s = .next t ∧ t.inputs = s.inputs.tail) ∧
  ∀ s : State, ∃ t, run s.inputs.length s = .next t ∧ t.inputs = [] ∧
    ∃ rs, t.responses = s.responses ++ rs ∧
      rs.length = s.inputs.countP (fun x => decide (x ≠ .hardwareReset))

/-- 60_exceptions.md R123, R124, 20_memory.md R35: the invariant of Safety.lean, every response of a possible shape and no
sticky bit without a response that reported it, is kept by every step. -/
def Obligations.EveryStepKeepsTheReports : Prop :=
  ∀ s t : State, Inv s → step s = .next t → Inv t

/-- The invariant holds right after reset (the empty record of responses is the model's choice, log entry 13). -/
def Obligations.ResetMeetsTheReports : Prop := Inv State.reset

/-! ## What the units compute -/

/-- 41_checksum.md R67: `sum8` is the sum of the bytes, as integers, modulo 256. -/
def Obligations.Sum8IsTheSumModulo256 : Prop :=
  ∀ m : List Byte, (sum8 m).toNat = (m.map BitVec.toNat).sum % 256

/-- 41_checksum.md R72, clauses (a) to (e). -/
def Obligations.Sum8LawsHold : Prop :=
  (∀ a b : List Byte, (sum8 (a ++ b)).toNat = ((sum8 a).toNat + (sum8 b).toNat) % 256) ∧
  (∀ a b : List Byte, a.Perm b → sum8 a = sum8 b) ∧
  (∀ (a b : List Byte) (k : Nat), sum8 (a ++ List.replicate k 0x00#8 ++ b) = sum8 (a ++ b)) ∧
  (∀ (a b : List Byte) (x delta : Byte), sum8 (a ++ (x + delta) :: b) = sum8 (a ++ x :: b) + delta) ∧
  (∀ (a b : List Byte) (x y : Byte), x ≠ y → sum8 (a ++ x :: b) ≠ sum8 (a ++ y :: b)) ∧
  (∃ x y x' y' : Byte, x ≠ x' ∧ y ≠ y' ∧ sum8 [x, y] = sum8 [x', y']) ∧
  (∀ b : Byte, sum8 (List.replicate 256 b) = 0x00#8) ∧
  ∀ b : Byte, (sum8 (List.replicate 128 b)).toNat = 128 * b.toNat % 256 ∧
    sum8 (List.replicate 128 b) = if b.getLsbD 0 then 0x80#8 else 0x00#8

/-- 41_checksum.md R71: streaming equivalence. -/
def Obligations.SumStreamsSum8 : Prop :=
  ∀ (start : HostInput) (xs : List HostInput) (s : State),
    start.restarts 0x1000#16 = true → (∀ x ∈ xs, x.restarts 0x1000#16 = false) →
    ∃ t, runInputs (start :: xs ++ [.command 0x1200#16]) s = .next t ∧ t.inputs = s.inputs ∧
      t.block.sum = sum8 (dataBytes 0x11#8 xs) ∧
      t.responses.getLast? = some { code := .ok, bytes := [sum8 (dataBytes 0x11#8 xs)] }

/-- 42_crc16.md R80: streaming equivalence. -/
def Obligations.C16StreamsCrc16 : Prop :=
  ∀ (start : HostInput) (xs : List HostInput) (s : State),
    start.restarts 0x2000#16 = true → (∀ x ∈ xs, x.restarts 0x2000#16 = false) →
    ∃ t, runInputs (start :: xs ++ [.command 0x2200#16]) s = .next t ∧ t.inputs = s.inputs ∧
      t.block.c16 = crc16 (dataBytes 0x21#8 xs) ∧
      t.responses.getLast? = some
        { code := .ok
          bytes := [(crc16 (dataBytes 0x21#8 xs)).extractLsb' 8 8, (crc16 (dataBytes 0x21#8 xs)).extractLsb' 0 8] }

/-- 43_crc32.md R91: streaming equivalence. -/
def Obligations.C32StreamsCrc32 : Prop :=
  ∀ (start : HostInput) (xs : List HostInput) (s : State),
    start.restarts 0x3000#16 = true → (∀ x ∈ xs, x.restarts 0x3000#16 = false) →
    ∃ t, runInputs (start :: xs ++ [.command 0x3200#16]) s = .next t ∧ t.inputs = s.inputs ∧
      t.block.c32 = crc32Raw (dataBytes 0x31#8 xs) ∧
      t.responses.getLast? = some
        { code := .ok
          bytes := [(crc32 (dataBytes 0x31#8 xs)).extractLsb' 0 8, (crc32 (dataBytes 0x31#8 xs)).extractLsb' 8 8,
                    (crc32 (dataBytes 0x31#8 xs)).extractLsb' 16 8, (crc32 (dataBytes 0x31#8 xs)).extractLsb' 24 8] }

/-- 42_crc16.md R75, 43_crc32.md R86: the table-driven forms give the same values as the bit-serial ones. -/
def Obligations.TableDrivenFormsAgree : Prop :=
  (∀ (c : Word) (d : Byte), crc16Step c d = crc16StepByTable c d) ∧
  ∀ (c : Word32) (d : Byte), crc32Step c d = crc32StepByTable c d

/-- 42_crc16.md R81 (a), (b), (c). -/
def Obligations.Crc16IsLinearAndHasResidueZero : Prop :=
  (∀ a b : List Byte, a.length = b.length → crc16 (List.zipWith (· ^^^ ·) a b) = crc16 a ^^^ crc16 b) ∧
  (∀ (k : Nat) (m : List Byte), crc16 (List.replicate k 0x00#8 ++ m) = crc16 m) ∧
  (∀ k : Nat, crc16 (List.replicate k 0x00#8) = 0x0000#16) ∧
  (∃ m : List Byte, crc16 (m ++ [0x00#8]) ≠ crc16 m) ∧
  ∀ m : List Byte, crc16 (m ++ [(crc16 m).extractLsb' 8 8, (crc16 m).extractLsb' 0 8]) = 0x0000#16

/-- 43_crc32.md R92 (a), (b), (c). -/
def Obligations.Crc32IsAffineAndHasItsResidue : Prop :=
  (∀ a b : List Byte, a.length = b.length →
    crc32 (List.zipWith (· ^^^ ·) a b) = crc32 a ^^^ crc32 b ^^^ crc32 (List.replicate a.length 0x00#8)) ∧
  crc32 [0x31#8, 0x32#8, 0x33#8, 0x34#8, 0x35#8, 0x36#8, 0x37#8, 0x38#8, 0x39#8] = 0xCBF43926#32 ∧
  crc32 [0x00#8, 0x00#8, 0x00#8, 0x31#8, 0x32#8, 0x33#8, 0x34#8, 0x35#8, 0x36#8, 0x37#8, 0x38#8, 0x39#8] = 0x5628EBE7#32 ∧
  ∀ m : List Byte, ∃ b0 b1 b2 b3 : Byte,
    [b0, b1, b2, b3] = [(crc32 m).extractLsb' 0 8, (crc32 m).extractLsb' 8 8, (crc32 m).extractLsb' 16 8,
      (crc32 m).extractLsb' 24 8] ∧
    crc32Raw (m ++ [b0, b1, b2, b3]) = 0xDEBB20E3#32 ∧ crc32 (m ++ [b0, b1, b2, b3]) = 0x2144DF1C#32

/-- 42_crc16.md R81 (d), 43_crc32.md R92 (d): any change of a single byte changes the CRC (general knowledge of the spec's
writer, 93_implementation_defined.md G5). -/
def Obligations.CrcsDetectEverySingleByteChange : Prop :=
  ∀ (a b : List Byte) (x y : Byte), x ≠ y →
    crc16 (a ++ x :: b) ≠ crc16 (a ++ y :: b) ∧ crc32 (a ++ x :: b) ≠ crc32 (a ++ y :: b)

/-- 42_crc16.md R75, R76, 43_crc32.md R86, R87: the CRCs as remainders over GF(2). CRC-16 of m is m(x) * x^16 modulo
x^16 + x^12 + x^5 + 1; the raw CRC-32 of m, its bits and the bits of every byte reversed, is
m(x) * x^32 + (x^31 + ... + 1) * x^(8 n) modulo the CRC-32 generator, n being the number of bytes. -/
def Obligations.CrcsArePolynomialRemainders : Prop :=
  (∀ m : List Byte, (messagePoly m * Polynomial.X ^ 16) %ₘ c16Generator = bitsPoly (crc16 m)) ∧
  ∀ m : List Byte,
    (messagePoly (m.map BitVec.reverse) * Polynomial.X ^ 32 +
      bitsPoly (BitVec.allOnes 32) * Polynomial.X ^ (8 * m.length)) %ₘ c32Generator = bitsPoly (crc32Raw m).reverse

/-! ## Pseudo-instructions and the assembler -/

/-- 30_encoding.md R56: what the five pseudo-instructions yield. -/
def Obligations.PseudoInstructionsYieldTheirResults : Prop :=
  ∀ (m : List Byte) (s : State),
    (∃ t, runInputs (commandsOf (sumMsg m)) s = .next t ∧ t.inputs = s.inputs ∧
      t.responses.getLast? = some { code := .ok, bytes := [sum8 m] }) ∧
    (∃ t, runInputs (commandsOf (c16Msg m)) s = .next t ∧ t.inputs = s.inputs ∧
      t.responses.getLast? = some { code := .ok, bytes := [(crc16 m).extractLsb' 8 8, (crc16 m).extractLsb' 0 8] }) ∧
    (∃ t, runInputs (commandsOf (c32Msg m)) s = .next t ∧ t.inputs = s.inputs ∧
      t.responses.getLast? = some
        { code := .ok
          bytes := [(crc32 m).extractLsb' 0 8, (crc32 m).extractLsb' 8 8, (crc32 m).extractLsb' 16 8,
                    (crc32 m).extractLsb' 24 8] }) ∧
    (∃ rs, runInputs (commandsOf (escMsg m)) s =
        .next { block := s.block, inputs := s.inputs, responses := s.responses ++ rs } ∧
      rs.length = m.length ∧ (∀ r ∈ rs, r.code = .ok) ∧ rs.flatMap Response.bytes = escape m s.block.csr.mode) ∧
    (∃ t rs, runInputs (commandsOf (uneMsg m)) s = .next t ∧ t.inputs = s.inputs ∧
      t.responses = s.responses ++ rs ∧ rs.length = m.length + 1 ∧
      ((∀ r ∈ rs, r.code = .ok) → rs.flatMap Response.bytes = (unescape m).bytes ∧ (unescape m).errors = []))

/-- 30_encoding.md R55, R56: the line of a command assembles to its one word, and a pseudo-instruction's line to the words of
its expansion. The lexical details are the model's choice (log entry 12). -/
def Obligations.AssemblingALineGivesItsWords : Prop :=
  (∀ i : Instr, assembleLine (lineOf i) = some [encode i]) ∧
  ∀ m : List Byte,
    assembleLine ("SUM.MSG".toList ++ operandsText m) = some ((sumMsg m).map encode) ∧
    assembleLine ("C16.MSG".toList ++ operandsText m) = some ((c16Msg m).map encode) ∧
    assembleLine ("C32.MSG".toList ++ operandsText m) = some ((c32Msg m).map encode) ∧
    assembleLine ("ESC.MSG".toList ++ operandsText m) = some ((escMsg m).map encode) ∧
    assembleLine ("UNE.MSG".toList ++ operandsText m) = some ((uneMsg m).map encode)
end

