-- ==== Sys2Proof/Laws/State.lean ====
section
/-! SUPPORT. One lemma per field of the state per update, each true by unfolding, so that no later proof unfolds a record
update. Also the CSR byte, read back field by field. -/

namespace Sys2Proof.Machine

@[simp] theorem State.setSum_sum (v : Byte) (s : State) : (s.setSum v).block.sum = v := rfl
@[simp] theorem State.setSum_c16 (v : Byte) (s : State) : (s.setSum v).block.c16 = s.block.c16 := rfl
@[simp] theorem State.setSum_c32 (v : Byte) (s : State) : (s.setSum v).block.c32 = s.block.c32 := rfl
@[simp] theorem State.setSum_csr (v : Byte) (s : State) : (s.setSum v).block.csr = s.block.csr := rfl
@[simp] theorem State.setSum_inputs (v : Byte) (s : State) : (s.setSum v).inputs = s.inputs := rfl
@[simp] theorem State.setSum_responses (v : Byte) (s : State) : (s.setSum v).responses = s.responses := rfl

@[simp] theorem State.setC16_sum (v : Word) (s : State) : (s.setC16 v).block.sum = s.block.sum := rfl
@[simp] theorem State.setC16_c16 (v : Word) (s : State) : (s.setC16 v).block.c16 = v := rfl
@[simp] theorem State.setC16_c32 (v : Word) (s : State) : (s.setC16 v).block.c32 = s.block.c32 := rfl
@[simp] theorem State.setC16_csr (v : Word) (s : State) : (s.setC16 v).block.csr = s.block.csr := rfl
@[simp] theorem State.setC16_inputs (v : Word) (s : State) : (s.setC16 v).inputs = s.inputs := rfl
@[simp] theorem State.setC16_responses (v : Word) (s : State) : (s.setC16 v).responses = s.responses := rfl

@[simp] theorem State.setC32_sum (v : Word32) (s : State) : (s.setC32 v).block.sum = s.block.sum := rfl
@[simp] theorem State.setC32_c16 (v : Word32) (s : State) : (s.setC32 v).block.c16 = s.block.c16 := rfl
@[simp] theorem State.setC32_c32 (v : Word32) (s : State) : (s.setC32 v).block.c32 = v := rfl
@[simp] theorem State.setC32_csr (v : Word32) (s : State) : (s.setC32 v).block.csr = s.block.csr := rfl
@[simp] theorem State.setC32_inputs (v : Word32) (s : State) : (s.setC32 v).inputs = s.inputs := rfl
@[simp] theorem State.setC32_responses (v : Word32) (s : State) : (s.setC32 v).responses = s.responses := rfl

@[simp] theorem State.setMode_sum (m : EscMode) (s : State) : (s.setMode m).block.sum = s.block.sum := rfl
@[simp] theorem State.setMode_c16 (m : EscMode) (s : State) : (s.setMode m).block.c16 = s.block.c16 := rfl
@[simp] theorem State.setMode_c32 (m : EscMode) (s : State) : (s.setMode m).block.c32 = s.block.c32 := rfl
@[simp] theorem State.setMode_mode (m : EscMode) (s : State) : (s.setMode m).block.csr.mode = m := rfl
@[simp] theorem State.setMode_uerr (m : EscMode) (s : State) : (s.setMode m).block.csr.uerr = s.block.csr.uerr := rfl
@[simp] theorem State.setMode_ill (m : EscMode) (s : State) : (s.setMode m).block.csr.ill = s.block.csr.ill := rfl
@[simp] theorem State.setMode_pend (m : EscMode) (s : State) : (s.setMode m).block.csr.pend = s.block.csr.pend := rfl
@[simp] theorem State.setMode_inputs (m : EscMode) (s : State) : (s.setMode m).inputs = s.inputs := rfl
@[simp] theorem State.setMode_responses (m : EscMode) (s : State) : (s.setMode m).responses = s.responses := rfl

@[simp] theorem State.setPend_sum (p : Bool) (s : State) : (s.setPend p).block.sum = s.block.sum := rfl
@[simp] theorem State.setPend_c16 (p : Bool) (s : State) : (s.setPend p).block.c16 = s.block.c16 := rfl
@[simp] theorem State.setPend_c32 (p : Bool) (s : State) : (s.setPend p).block.c32 = s.block.c32 := rfl
@[simp] theorem State.setPend_mode (p : Bool) (s : State) : (s.setPend p).block.csr.mode = s.block.csr.mode := rfl
@[simp] theorem State.setPend_uerr (p : Bool) (s : State) : (s.setPend p).block.csr.uerr = s.block.csr.uerr := rfl
@[simp] theorem State.setPend_ill (p : Bool) (s : State) : (s.setPend p).block.csr.ill = s.block.csr.ill := rfl
@[simp] theorem State.setPend_pend (p : Bool) (s : State) : (s.setPend p).block.csr.pend = p := rfl
@[simp] theorem State.setPend_inputs (p : Bool) (s : State) : (s.setPend p).inputs = s.inputs := rfl
@[simp] theorem State.setPend_responses (p : Bool) (s : State) : (s.setPend p).responses = s.responses := rfl

@[simp] theorem State.setIll_sum (s : State) : s.setIll.block.sum = s.block.sum := rfl
@[simp] theorem State.setIll_c16 (s : State) : s.setIll.block.c16 = s.block.c16 := rfl
@[simp] theorem State.setIll_c32 (s : State) : s.setIll.block.c32 = s.block.c32 := rfl
@[simp] theorem State.setIll_mode (s : State) : s.setIll.block.csr.mode = s.block.csr.mode := rfl
@[simp] theorem State.setIll_uerr (s : State) : s.setIll.block.csr.uerr = s.block.csr.uerr := rfl
@[simp] theorem State.setIll_ill (s : State) : s.setIll.block.csr.ill = true := rfl
@[simp] theorem State.setIll_pend (s : State) : s.setIll.block.csr.pend = s.block.csr.pend := rfl
@[simp] theorem State.setIll_inputs (s : State) : s.setIll.inputs = s.inputs := rfl
@[simp] theorem State.setIll_responses (s : State) : s.setIll.responses = s.responses := rfl

@[simp] theorem State.setUerr_sum (s : State) : s.setUerr.block.sum = s.block.sum := rfl
@[simp] theorem State.setUerr_c16 (s : State) : s.setUerr.block.c16 = s.block.c16 := rfl
@[simp] theorem State.setUerr_c32 (s : State) : s.setUerr.block.c32 = s.block.c32 := rfl
@[simp] theorem State.setUerr_mode (s : State) : s.setUerr.block.csr.mode = s.block.csr.mode := rfl
@[simp] theorem State.setUerr_uerr (s : State) : s.setUerr.block.csr.uerr = true := rfl
@[simp] theorem State.setUerr_ill (s : State) : s.setUerr.block.csr.ill = s.block.csr.ill := rfl
@[simp] theorem State.setUerr_pend (s : State) : s.setUerr.block.csr.pend = s.block.csr.pend := rfl
@[simp] theorem State.setUerr_inputs (s : State) : s.setUerr.inputs = s.inputs := rfl
@[simp] theorem State.setUerr_responses (s : State) : s.setUerr.responses = s.responses := rfl

@[simp] theorem State.resetBlock_block (s : State) : s.resetBlock.block = Block.reset := rfl
@[simp] theorem State.resetBlock_inputs (s : State) : s.resetBlock.inputs = s.inputs := rfl
@[simp] theorem State.resetBlock_responses (s : State) : s.resetBlock.responses = s.responses := rfl

@[simp] theorem State.answered_block (s : State) (b : Block) (code : RespCode) (bytes : List Byte) :
    (s.answered b code bytes).block = b := rfl
@[simp] theorem State.answered_inputs (s : State) (b : Block) (code : RespCode) (bytes : List Byte) :
    (s.answered b code bytes).inputs = s.inputs := rfl
@[simp] theorem State.answered_responses (s : State) (b : Block) (code : RespCode) (bytes : List Byte) :
    (s.answered b code bytes).responses = s.responses ++ [{ code := code, bytes := bytes }] := rfl

@[simp] theorem State.given_block (s : State) (xs : List HostInput) : (s.given xs).block = s.block := rfl
@[simp] theorem State.given_inputs (s : State) (xs : List HostInput) : (s.given xs).inputs = xs ++ s.inputs := rfl
@[simp] theorem State.given_responses (s : State) (xs : List HostInput) : (s.given xs).responses = s.responses := rfl

@[simp] theorem Block.withIll_ill (v : Bool) (b : Block) : (b.withIll v).csr.ill = v := rfl
@[simp] theorem Block.withUerr_uerr (v : Bool) (b : Block) : (b.withUerr v).csr.uerr = v := rfl
@[simp] theorem Block.withMode_mode (m : EscMode) (b : Block) : (b.withMode m).csr.mode = m := rfl

@[simp] theorem State.withFetchWord_block (s : State) (nbits w : Nat) : (s.withFetchWord nbits w).block = s.block := rfl
@[simp] theorem State.withFetchWord_responses (s : State) (nbits w : Nat) :
    (s.withFetchWord nbits w).responses = s.responses := rfl

/-- The reserved bits of the CSR byte are zeros and its other bits are the fields (10_state.md R18, R24). -/
theorem Csr.toByte_bits (c : Csr) :
    c.toByte.getLsbD 7 = false ∧ c.toByte.getLsbD 6 = false ∧ c.toByte.extractLsb' 4 2 = modeNumber c.mode ∧
      c.toByte.getLsbD 3 = false ∧ c.toByte.getLsbD 2 = c.uerr ∧ c.toByte.getLsbD 1 = c.ill ∧
      c.toByte.getLsbD 0 = c.pend := by
  obtain ⟨mode, uerr, ill, pend⟩ := c
  cases mode <;> cases uerr <;> cases ill <;> cases pend <;> decide

end Sys2Proof.Machine
end

