-- ==== Sys2Proof/Laws/Ops.lean ====
section
/-! SUPPORT. One lemma per shared operation that says once everything it does. Every meaning ends in one of them, so a
proof about a meaning cites these instead of unfolding the operations. -/

namespace Sys2Proof.Machine

/-- `respond` appends one response and leaves block and inputs as they are. -/
theorem respond_eq_answered (code : RespCode) (bytes : List Byte) (s : State) :
    respond code bytes s = .next (s.answered s.block code bytes) := rfl

/-- A respond after an update of the block alone, said of the state before the update. -/
theorem respond_of_block_update {s s' : State} (hi : s'.inputs = s.inputs) (hr : s'.responses = s.responses)
    (code : RespCode) (bytes : List Byte) : respond code bytes s' = .next (s.answered s'.block code bytes) := by
  simp [respond, State.answered, hi, hr]

/-- The illegal command event (60_exceptions.md R125): ILL and the response, nothing else. -/
theorem illegalCommand_eq_answered (s : State) :
    illegalCommand s = .next (s.answered (s.block.withIll true) .illegal []) := rfl

/-- The escape error event (60_exceptions.md R126): PEND, UERR and the response, nothing else. -/
theorem escapeError_eq_answered (s : State) :
    escapeError s =
      .next (s.answered { s.block with csr := { s.block.csr with pend := false, uerr := true } } .escErr []) := rfl

/-- A hardware reset touches the block alone (70_reset_and_hazards.md R141). -/
theorem hardwareReset_eq (s : State) : hardwareReset s = .next { s with block := Block.reset } := rfl

/-- The two outcomes of decoding, as outcomes of a word. -/
theorem executeWord_of_instr {w : Word} {i : Instr} (h : decode w = .instr i) (s : State) :
    executeWord w s = exec i s := by
  simp [executeWord, h]

theorem executeWord_of_reserved {w : Word} {why : Reserved} (h : decode w = .reserved why) (s : State) :
    executeWord w s = illegalCommand s := by
  simp [executeWord, h]

/-- Everything executing a command can do: the block changes in a way that what the host holds has no part in, and one
response, in which it has no part either, is appended. -/
theorem exec_answers (i : Instr) (b : Block) : ∃ b' code bytes, ∀ ins rs,
    exec i { block := b, inputs := ins, responses := rs } =
      .next ({ block := b, inputs := ins, responses := rs : State }.answered b' code bytes) := by
  cases i with
  | nop => exact ⟨b, .ok, [], fun _ _ => rfl⟩
  | rst => exact ⟨Block.reset, .ok, [], fun _ _ => rfl⟩
  | rdst => exact ⟨b, .ok, [b.csr.toByte], fun _ _ => rfl⟩
  | sumInit => exact ⟨{ b with sum := Params.sumInit }, .ok, [], fun _ _ => rfl⟩
  | sumUpd d => exact ⟨{ b with sum := sum8Step b.sum d }, .ok, [], fun _ _ => rfl⟩
  | sumRd => exact ⟨b, .ok, sumBytes b.sum, fun _ _ => rfl⟩
  | c16Init => exact ⟨{ b with c16 := Params.c16Init }, .ok, [], fun _ _ => rfl⟩
  | c16Upd d => exact ⟨{ b with c16 := crc16Step b.c16 d }, .ok, [], fun _ _ => rfl⟩
  | c16Rd => exact ⟨b, .ok, bytesHighFirst (b.c16 ^^^ Params.c16Xorout), fun _ _ => rfl⟩
  | c32Init => exact ⟨{ b with c32 := Params.c32Init }, .ok, [], fun _ _ => rfl⟩
  | c32Upd d => exact ⟨{ b with c32 := crc32Step b.c32 d }, .ok, [], fun _ _ => rfl⟩
  | c32Rd => exact ⟨b, .ok, bytesLowFirst (b.c32 ^^^ Params.c32Xorout), fun _ _ => rfl⟩
  | escMin => exact ⟨b.withMode .minimal, .ok, [], fun _ _ => rfl⟩
  | escCtl => exact ⟨b.withMode .controlChars, .ok, [], fun _ _ => rfl⟩
  | escA8b => exact ⟨b.withMode .all8Bit, .ok, [], fun _ _ => rfl⟩
  | escEnc d => exact ⟨b, .ok, escape1 d b.csr.mode, fun _ _ => rfl⟩
  | uneInit => exact ⟨{ b with csr := { b.csr with pend := false } }, .ok, [], fun _ _ => rfl⟩
  | uneDec d =>
    obtain ⟨sum, c16, c32, ⟨mode, uerr, ill, pend⟩⟩ := b
    cases pend with
    | false =>
      by_cases hd : d = Params.zdle
      · exact ⟨⟨sum, c16, c32, ⟨mode, uerr, ill, true⟩⟩, .ok, [], fun _ _ => by simp [exec, execUneDec, hd]; rfl⟩
      · exact ⟨⟨sum, c16, c32, ⟨mode, uerr, ill, false⟩⟩, .ok, [d], fun _ _ => by simp [exec, execUneDec, hd]; rfl⟩
    | true =>
      cases hc : canonical d with
      | false =>
        exact ⟨⟨sum, c16, c32, ⟨mode, true, ill, false⟩⟩, .escErr, [], fun _ _ => by simp [exec, execUneDec, hc]; rfl⟩
      | true =>
        exact ⟨⟨sum, c16, c32, ⟨mode, uerr, ill, false⟩⟩, .ok, [d ^^^ Params.escXor], fun _ _ => by
          simp [exec, execUneDec, hc]; rfl⟩

/-- The same of a word, legal or not. -/
theorem executeWord_answers (w : Word) (b : Block) : ∃ b' code bytes, ∀ ins rs,
    executeWord w { block := b, inputs := ins, responses := rs } =
      .next ({ block := b, inputs := ins, responses := rs : State }.answered b' code bytes) := by
  cases h : decode w with
  | instr i =>
    obtain ⟨b', code, bytes, hx⟩ := exec_answers i b
    exact ⟨b', code, bytes, fun ins rs => (executeWord_of_instr h _).trans (hx ins rs)⟩
  | reserved why =>
    exact ⟨b.withIll true, .illegal, [], fun _ _ => (executeWord_of_reserved h _).trans rfl⟩

end Sys2Proof.Machine
end

