-- ==== Sys2Proof/Laws/PerInstr.lean ====
section
/-! SUPPORT. What holds of every instruction as syntax, one lemma per constructor. -/

/-- The row of the opcode map that an instruction is an entry of: its mnemonic, its bits and its operand
(30_encoding.md R50). -/
def Sys2Proof.Laws.TableRow.Statement (i : Sys2Proof.Instr) : Prop :=
  ∃ r ∈ Sys2Proof.opcodeMap, r.mnemonic = i.mnemonic ∧ (Sys2Proof.encode i &&& r.mask) = r.pattern ∧
    r.build (Sys2Proof.lowByte (Sys2Proof.encode i)) = i

namespace Sys2Proof

/-- The operand of a format B word is its low byte (30_encoding.md R49). -/
theorem lowByte_wordB (p : Word) (d : Byte) (h : lowByte p = 0x00#8) : lowByte (wordB p d) = d := by
  ext k hk
  have hk' : k < 16 := by omega
  have hp : p[k] = false := by
    have := congrArg (fun v : Byte => v.getLsbD k) h
    simpa [lowByte, hk, hk', BitVec.getLsbD_eq_getElem] using this
  simp [lowByte, wordB, hk, hk', hp]

/-- The operand of a format B word does not reach the bits its row's mask keeps (30_encoding.md R50). -/
theorem wordB_and_mask (p : Word) (d : Byte) (h : p &&& 0xFF00#16 = p) : wordB p d &&& 0xFF00#16 = p := by
  have hd : d.setWidth 16 &&& 0xFF00#16 = 0#16 := by revert d; decide
  rw [wordB, BitVec.and_comm, BitVec.and_or_distrib_left, BitVec.and_comm, h, BitVec.and_comm, hd, BitVec.or_zero]

namespace Laws.TableRow

theorem nop : Statement .nop :=
  ⟨⟨"NOP", 0x0000#16, 0xFFFF#16, fun _ => .nop⟩, by simp [opcodeMap], rfl, by decide, rfl⟩

theorem rst : Statement .rst :=
  ⟨⟨"RST", 0x0100#16, 0xFFFF#16, fun _ => .rst⟩, by simp [opcodeMap], rfl, by decide, rfl⟩

theorem rdst : Statement .rdst :=
  ⟨⟨"RDST", 0x0200#16, 0xFFFF#16, fun _ => .rdst⟩, by simp [opcodeMap], rfl, by decide, rfl⟩

theorem sumInit : Statement .sumInit :=
  ⟨⟨"SUM.INIT", 0x1000#16, 0xFFFF#16, fun _ => .sumInit⟩, by simp [opcodeMap], rfl, by decide, rfl⟩

theorem sumUpd (d : Byte) : Statement (.sumUpd d) :=
  ⟨⟨"SUM.UPD", 0x1100#16, 0xFF00#16, .sumUpd⟩, by simp [opcodeMap], rfl, wordB_and_mask _ d (by decide),
    congrArg Instr.sumUpd (lowByte_wordB _ d (by decide))⟩

theorem sumRd : Statement .sumRd :=
  ⟨⟨"SUM.RD", 0x1200#16, 0xFFFF#16, fun _ => .sumRd⟩, by simp [opcodeMap], rfl, by decide, rfl⟩

theorem c16Init : Statement .c16Init :=
  ⟨⟨"C16.INIT", 0x2000#16, 0xFFFF#16, fun _ => .c16Init⟩, by simp [opcodeMap], rfl, by decide, rfl⟩

theorem c16Upd (d : Byte) : Statement (.c16Upd d) :=
  ⟨⟨"C16.UPD", 0x2100#16, 0xFF00#16, .c16Upd⟩, by simp [opcodeMap], rfl, wordB_and_mask _ d (by decide),
    congrArg Instr.c16Upd (lowByte_wordB _ d (by decide))⟩

theorem c16Rd : Statement .c16Rd :=
  ⟨⟨"C16.RD", 0x2200#16, 0xFFFF#16, fun _ => .c16Rd⟩, by simp [opcodeMap], rfl, by decide, rfl⟩

theorem c32Init : Statement .c32Init :=
  ⟨⟨"C32.INIT", 0x3000#16, 0xFFFF#16, fun _ => .c32Init⟩, by simp [opcodeMap], rfl, by decide, rfl⟩

theorem c32Upd (d : Byte) : Statement (.c32Upd d) :=
  ⟨⟨"C32.UPD", 0x3100#16, 0xFF00#16, .c32Upd⟩, by simp [opcodeMap], rfl, wordB_and_mask _ d (by decide),
    congrArg Instr.c32Upd (lowByte_wordB _ d (by decide))⟩

theorem c32Rd : Statement .c32Rd :=
  ⟨⟨"C32.RD", 0x3200#16, 0xFFFF#16, fun _ => .c32Rd⟩, by simp [opcodeMap], rfl, by decide, rfl⟩

theorem escMin : Statement .escMin :=
  ⟨⟨"ESC.MIN", 0x4000#16, 0xFFFF#16, fun _ => .escMin⟩, by simp [opcodeMap], rfl, by decide, rfl⟩

theorem escCtl : Statement .escCtl :=
  ⟨⟨"ESC.CTL", 0x4001#16, 0xFFFF#16, fun _ => .escCtl⟩, by simp [opcodeMap], rfl, by decide, rfl⟩

theorem escA8b : Statement .escA8b :=
  ⟨⟨"ESC.A8B", 0x4002#16, 0xFFFF#16, fun _ => .escA8b⟩, by simp [opcodeMap], rfl, by decide, rfl⟩

theorem escEnc (d : Byte) : Statement (.escEnc d) :=
  ⟨⟨"ESC.ENC", 0x4100#16, 0xFF00#16, .escEnc⟩, by simp [opcodeMap], rfl, wordB_and_mask _ d (by decide),
    congrArg Instr.escEnc (lowByte_wordB _ d (by decide))⟩

theorem uneInit : Statement .uneInit :=
  ⟨⟨"UNE.INIT", 0x5000#16, 0xFFFF#16, fun _ => .uneInit⟩, by simp [opcodeMap], rfl, by decide, rfl⟩

theorem uneDec (d : Byte) : Statement (.uneDec d) :=
  ⟨⟨"UNE.DEC", 0x5100#16, 0xFF00#16, .uneDec⟩, by simp [opcodeMap], rfl, wordB_and_mask _ d (by decide),
    congrArg Instr.uneDec (lowByte_wordB _ d (by decide))⟩

end Laws.TableRow

end Sys2Proof
end

