-- ==== Sys2Proof/Laws/Step.lean ====
section
/-! SUPPORT. What a step can do, said once, and how runs are put together from steps. -/

namespace Sys2Proof.Machine

theorem step_command (w : Word) (rest : List HostInput) (s : State) :
    step { s with inputs := .command w :: rest } = executeWord w { s with inputs := rest } := rfl

theorem step_hardwareReset (rest : List HostInput) (s : State) :
    step { s with inputs := .hardwareReset :: rest } = .next { s with block := Block.reset, inputs := rest } := rfl

theorem step_idle {s : State} (h : s.inputs = []) : step s = .next s := by
  simp [step, idle, h]

/-- Everything a step can do: it idles, it resets the block, or it executes one word. -/
theorem step_cases {s t : State} (h : step s = .next t) :
    (s.inputs = [] ∧ t = s) ∨
    (∃ rest, s.inputs = .hardwareReset :: rest ∧ t = { s with block := Block.reset, inputs := rest }) ∨
    (∃ w rest, s.inputs = .command w :: rest ∧ executeWord w { s with inputs := rest } = .next t) := by
  unfold step at h
  split at h
  case h_1 hs => exact .inl ⟨hs, by simpa [idle] using h.symm⟩
  case h_2 x rest hs =>
    cases x with
    | hardwareReset => exact .inr (.inl ⟨rest, hs, by simpa [takeInput, hardwareReset, State.resetBlock] using h.symm⟩)
    | command w => exact .inr (.inr ⟨w, rest, hs, h⟩)

@[simp] theorem run_zero (s : State) : run 0 s = .next s := rfl

theorem run_succ_of_next {k : Nat} {s t : State} (h : step s = .next t) : run (k + 1) s = run k t := by
  simp [run, h]

/-- `run` is `Host.Core.run` of this machine. -/
theorem run_eq_hostRun (k : Nat) (s : State) : Host.Core.run Sys2Proof.core k s = run k s := by
  induction k generalizing s with
  | zero => rfl
  | succ k ih =>
    have e : Host.Core.step Sys2Proof.core s = step s := rfl
    cases h : step s with
    | next t =>
      rw [run_succ_of_next h, ← ih t]
      simp only [Host.Core.run, e, h]
    | fault r => exact nomatch r
    | refused r =>
      have hr : run (k + 1) s = .refused r := by simp [run, h]
      rw [hr]
      simp only [Host.Core.run, e, h]
      rfl

@[simp] theorem runInputs_nil (s : State) : runInputs [] s = .next s := rfl

/-- A run over one input and more: the input takes effect, whatever stands behind it, then the rest runs. -/
theorem runInputs_cons {x : HostInput} {s : State} {b : Block} {rs : List Response} (xs : List HostInput)
    (h : ∀ ins, takeInput x { s with inputs := ins } =
      .next { block := b, inputs := ins, responses := s.responses ++ rs }) :
    runInputs (x :: xs) s = runInputs xs { block := b, inputs := s.inputs, responses := s.responses ++ rs } :=
  run_succ_of_next (k := xs.length) (h (xs ++ s.inputs))

end Sys2Proof.Machine
end

