-- ==== Sys2Proof/Tests/Slice0.lean ====
section
/-! SUPPORT. The model's own tests. Every expected value is the spec's: the file and vector or rule is named above each
group. Then the witnesses: concrete states and operands that meet the hypotheses of the statements. -/

namespace Sys2Proof.Machine

/-! ## Helpers -/

/-- A state written as 95_test_vectors.md writes one, the host side empty. -/
def testState (sum : Byte) (c16 : Word) (c32 : Word32) (mode : EscMode) (uerr ill pend : Bool) : State :=
  { block := { sum := sum, c16 := c16, c32 := c32, csr := { mode := mode, uerr := uerr, ill := ill, pend := pend } }
    inputs := [], responses := [] }

/-- The block and the response of one step, from a state to which the host hands one word. -/
def stepWord (w : Word) (s : State) : Option (Block × List Response) :=
  match step { s with inputs := [.command w] } with
  | .next t => some (t.block, t.responses)
  | .fault _ => none
  | .refused _ => none

/-- `24 BE50 A6DA5020 CSR` of 95_test_vectors.md V6, V9 and V11, with its CSR by field. -/
def v11State (mode : EscMode) (uerr ill pend : Bool) : State :=
  testState 0x24#8 0xBE50#16 0xA6DA5020#32 mode uerr ill pend

/-- The nine bytes of "123456789" (93_implementation_defined.md G9). -/
def digits : List Byte := [0x31#8, 0x32#8, 0x33#8, 0x34#8, 0x35#8, 0x36#8, 0x37#8, 0x38#8, 0x39#8]

/-- The five header bytes of 95_test_vectors.md V1. -/
def v1Header : List Byte := [0x01#8, 0x00#8, 0x00#8, 0x00#8, 0x23#8]

/-! ## Well-formedness: an ill-formed word for each clause of 30_encoding.md R52, and one legal word -/

theorem test_wf_unit : reservedUnit 0x6000#16 = true ∧ wordWellFormed 0x6000#16 = false := by decide
theorem test_wf_func : reservedFunc 0x1300#16 = true ∧ wordWellFormed 0x1300#16 = false := by decide
theorem test_wf_func_esc : reservedFunc 0x4200#16 = true ∧ wordWellFormed 0x5200#16 = false := by decide
theorem test_wf_lowByte : reservedLowByte 0x2205#16 = true ∧ wordWellFormed 0x2205#16 = false := by decide
theorem test_wf_mode : reservedMode 0x4003#16 = true ∧ wordWellFormed 0x4003#16 = false := by decide
theorem test_wf_legal : wordWellFormed 0x4002#16 = true ∧ wordWellFormed 0x51FF#16 = true := by decide

/-! ## Decoding: each command's word, bit by bit from the table's pattern (30_encoding.md R48, R50) -/

theorem test_decode_nop : decode 0b0000000000000000#16 = .instr .nop := by decide
theorem test_decode_rst : decode 0b0000000100000000#16 = .instr .rst := by decide
theorem test_decode_rdst : decode 0b0000001000000000#16 = .instr .rdst := by decide
theorem test_decode_sumInit : decode 0b0001000000000000#16 = .instr .sumInit := by decide
theorem test_decode_sumUpd : decode 0b0001000100110001#16 = .instr (.sumUpd 0x31#8) := by decide
theorem test_decode_sumRd : decode 0b0001001000000000#16 = .instr .sumRd := by decide
theorem test_decode_c16Init : decode 0b0010000000000000#16 = .instr .c16Init := by decide
theorem test_decode_c16Upd : decode 0b0010000110111110#16 = .instr (.c16Upd 0xBE#8) := by decide
theorem test_decode_c16Rd : decode 0b0010001000000000#16 = .instr .c16Rd := by decide
theorem test_decode_c32Init : decode 0b0011000000000000#16 = .instr .c32Init := by decide
theorem test_decode_c32Upd : decode 0b0011000101111111#16 = .instr (.c32Upd 0x7F#8) := by decide
theorem test_decode_c32Rd : decode 0b0011001000000000#16 = .instr .c32Rd := by decide
theorem test_decode_escMin : decode 0b0100000000000000#16 = .instr .escMin := by decide
theorem test_decode_escCtl : decode 0b0100000000000001#16 = .instr .escCtl := by decide
theorem test_decode_escA8b : decode 0b0100000000000010#16 = .instr .escA8b := by decide
theorem test_decode_escEnc : decode 0b0100000111000000#16 = .instr (.escEnc 0xC0#8) := by decide
theorem test_decode_uneInit : decode 0b0101000000000000#16 = .instr .uneInit := by decide
theorem test_decode_uneDec : decode 0b0101000100011000#16 = .instr (.uneDec 0x18#8) := by decide

/-- 95_test_vectors.md V11's reserved words, each with the clause of R52 it falls under. -/
theorem test_decode_reserved :
    decode 0x0001#16 = .reserved .lowByte ∧ decode 0x0300#16 = .reserved .func ∧ decode 0x1001#16 = .reserved .lowByte ∧
      decode 0x2205#16 = .reserved .lowByte ∧ decode 0x4003#16 = .reserved .mode ∧ decode 0x4200#16 = .reserved .func ∧
      decode 0x6000#16 = .reserved .unit ∧ decode 0xFFFF#16 = .reserved .unit := by decide

theorem test_decodeTableWord : decodeTableWord 16 0x2100 = some (.c16Upd 0x00#8) ∧ decodeTableWord 16 0x4003 = none := by
  decide

/-! ## One step of each command (95_test_vectors.md V6, V9, V11; the examples of the commands' own rules) -/

/-- V11. -/
theorem test_nop : stepWord 0x0000#16 (v11State .controlChars true true true) =
    some ((v11State .controlChars true true true).block, [⟨.ok, []⟩]) := by decide
/-- V11: RST from `24 BE50 A6DA5020 17`. -/
theorem test_rst : stepWord 0x0100#16 (v11State .controlChars true true true) =
    some ((testState 0x00#8 0x0000#16 0xFFFFFFFF#32 .minimal false false false).block, [⟨.ok, []⟩]) := by decide
/-- V11: RDST from `… 17`. -/
theorem test_rdst : stepWord 0x0200#16 (v11State .controlChars true true true) =
    some ((v11State .controlChars true true true).block, [⟨.ok, [0x17#8]⟩]) := by decide
/-- V11: `27 = All8Bit, UERR, ILL, PEND`; P5: `06` is UERR and ILL. -/
theorem test_rdst_bits : (v11State .all8Bit true true true).block.csr.toByte = 0x27#8 ∧
    (v11State .minimal true true false).block.csr.toByte = 0x06#8 := by decide
/-- R68's example: from SUM = 0xDD. -/
theorem test_sumInit : stepWord 0x1000#16 (testState 0xDD#8 0x31C3#16 0x340BC6D9#32 .minimal false false false) =
    some ((testState 0x00#8 0x31C3#16 0x340BC6D9#32 .minimal false false false).block, [⟨.ok, []⟩]) := by decide
/-- V6: SUM.UPD 0xFF from `24 BE50 A6DA5020 10` wraps to 23. -/
theorem test_sumUpd_wraps : stepWord 0x11FF#16 (v11State .controlChars false false false) =
    some ((testState 0x23#8 0xBE50#16 0xA6DA5020#32 .controlChars false false false).block, [⟨.ok, []⟩]) := by decide
/-- P1: step 20. -/
theorem test_sumRd : stepWord 0x1200#16 (testState 0xDD#8 0x31C3#16 0xFFFFFFFF#32 .minimal false false false) =
    some ((testState 0xDD#8 0x31C3#16 0xFFFFFFFF#32 .minimal false false false).block, [⟨.ok, [0xDD#8]⟩]) := by decide
/-- R77's example: from C16 = 0x31C3. -/
theorem test_c16Init : stepWord 0x2000#16 (testState 0xDD#8 0x31C3#16 0xFFFFFFFF#32 .minimal false false false) =
    some ((testState 0xDD#8 0x0000#16 0xFFFFFFFF#32 .minimal false false false).block, [⟨.ok, []⟩]) := by decide
/-- P2: step 10, 76B4 and 0x23 give BE50. -/
theorem test_c16Upd : stepWord 0x2123#16 (testState 0x00#8 0x76B4#16 0xFFFFFFFF#32 .controlChars false false false) =
    some ((testState 0x00#8 0xBE50#16 0xFFFFFFFF#32 .controlChars false false false).block, [⟨.ok, []⟩]) := by decide
/-- P2: step 12, high byte first. -/
theorem test_c16Rd : stepWord 0x2200#16 (testState 0x00#8 0xBE50#16 0xFFFFFFFF#32 .controlChars false false false) =
    some ((testState 0x00#8 0xBE50#16 0xFFFFFFFF#32 .controlChars false false false).block, [⟨.ok, [0xBE#8, 0x50#8]⟩]) := by
  decide
/-- R88's example: from C32 = 0x340BC6D9. -/
theorem test_c32Init : stepWord 0x3000#16 (testState 0xDD#8 0x31C3#16 0x340BC6D9#32 .minimal false false false) =
    some ((testState 0xDD#8 0x31C3#16 0xFFFFFFFF#32 .minimal false false false).block, [⟨.ok, []⟩]) := by decide
/-- V11's last row: C32.UPD 0xFF from `24 BE50 A6DA5020 21`. -/
theorem test_c32Upd : stepWord 0x31FF#16 (v11State .all8Bit false false true) =
    some ((testState 0x24#8 0xBE50#16 0x16CA1515#32 .all8Bit false false true).block, [⟨.ok, []⟩]) := by decide
/-- R90's example: low byte first. -/
theorem test_c32Rd : stepWord 0x3200#16 (v11State .minimal false false false) =
    some ((v11State .minimal false false false).block, [⟨.ok, [0xDF#8, 0xAF#8, 0x25#8, 0x59#8]⟩]) := by decide
/-- V9: ESC.MIN from `… 27` gives `… 07`. -/
theorem test_escMin : stepWord 0x4000#16 (v11State .all8Bit true true true) =
    some ((v11State .minimal true true true).block, [⟨.ok, []⟩]) := by decide
/-- R103's example. -/
theorem test_escCtl : stepWord 0x4001#16 (v11State .minimal false false false) =
    some ((v11State .controlChars false false false).block, [⟨.ok, []⟩]) := by decide
/-- R104's example: from CSR = 0x05 to 0x25. -/
theorem test_escA8b : stepWord 0x4002#16 (v11State .minimal true false true) =
    some ((v11State .all8Bit true false true).block, [⟨.ok, []⟩]) := by decide
/-- V9: 0xC0 in All8Bit mode, and P2's step 3. -/
theorem test_escEnc : stepWord 0x41C0#16 (v11State .all8Bit false false true) =
    some ((v11State .all8Bit false false true).block, [⟨.ok, [0x18#8, 0x80#8]⟩]) := by decide
theorem test_escEnc_literal : stepWord 0x4123#16 (v11State .controlChars false false false) =
    some ((v11State .controlChars false false false).block, [⟨.ok, [0x23#8]⟩]) := by decide
/-- R114: PEND is cleared, UERR kept. -/
theorem test_uneInit : stepWord 0x5000#16 (v11State .minimal true false true) =
    some ((v11State .minimal true false false).block, [⟨.ok, []⟩]) := by decide
/-- P3: step 3; P5: steps 3 and 5. -/
theorem test_uneDec_canonical : stepWord 0x5141#16 (v11State .minimal false false true) =
    some ((v11State .minimal false false false).block, [⟨.ok, [0x01#8]⟩]) := by decide
theorem test_uneDec_malformed : stepWord 0x5168#16 (v11State .minimal false true true) =
    some ((v11State .minimal true true false).block, [⟨.escErr, []⟩]) := by decide
/-- V11's last row: the illegal word 0x7123 sets ILL and keeps PEND and MODE. -/
theorem test_illegal : stepWord 0x7123#16 (testState 0x24#8 0xBE50#16 0x16CA1515#32 .all8Bit false false true) =
    some ((testState 0x24#8 0xBE50#16 0x16CA1515#32 .all8Bit false true true).block, [⟨.illegal, []⟩]) := by decide
/-- 70_reset_and_hazards.md R141: a reset returns no response. -/
theorem test_hardwareReset : step { v11State .all8Bit true true true with inputs := [.hardwareReset] } =
    .next (testState 0x00#8 0x0000#16 0xFFFFFFFF#32 .minimal false false false) := by rfl
theorem test_idle : step State.reset = .next State.reset := by rfl
/-- The first word after reset is the one handed over: C16.UPD 0x01 gives 1021 (P6, step 0). -/
theorem test_withFetchWord : step (State.reset.withFetchWord 16 0x2101) =
    .next (State.reset.answered { Block.reset with c16 := 0x1021#16 } .ok []) := by rfl

/-! ## The functions (95_test_vectors.md V1, V6 to V10) -/

theorem test_sum8 : sum8 digits = 0xDD#8 ∧ sum8 v1Header = 0x24#8 ∧ sum8 [0xFF#8, 0x01#8] = 0x00#8 := by decide
set_option maxRecDepth 20000 in
theorem test_crc16_source_example : crc16 v1Header = 0xBE50#16 := by decide
set_option maxRecDepth 20000 in
theorem test_crc16_check : crc16 digits = 0x31C3#16 := by decide
set_option maxRecDepth 20000 in
theorem test_crc32_check : crc32 digits = 0xCBF43926#32 := by decide
set_option maxRecDepth 20000 in
theorem test_crc32_v8 : crc32 [0x0A#8, 0x18#8, 0x11#8, 0x80#8, 0x7F#8] = 0xFFE2AD6D#32 := by decide
theorem test_tables : crc16StepByTable 0x2672#16 0x32#8 = 0x20B5#16 ∧
    crc32StepByTable 0x7C231048#32 0x32#8 = 0xB0ACBB32#32 := by decide
theorem test_escape_v9 : escape [0x01#8, 0x00#8, 0x23#8, 0xBE#8] .all8Bit =
    [0x18#8, 0x41#8, 0x18#8, 0x40#8, 0x23#8, 0x18#8, 0xFE#8] := by decide
theorem test_escape_minimal : escape [0x0A#8, 0x18#8, 0x11#8, 0x80#8, 0x7F#8] .minimal =
    [0x0A#8, 0x18#8, 0x58#8, 0x18#8, 0x51#8, 0x80#8, 0x7F#8] := by decide
/-- V10: the boundaries of `canonical`. -/
theorem test_canonical_boundaries : canonical 0x3F#8 = false ∧ canonical 0x40#8 = true ∧ canonical 0x5F#8 = true ∧
    canonical 0x60#8 = false ∧ canonical 0x7F#8 = false ∧ canonical 0x80#8 = true ∧ canonical 0xFF#8 = true ∧
    canonical 0x18#8 = false := by decide
/-- V10: five ZDLE bytes. -/
theorem test_unescape_five_zdle : unescape [0x18#8, 0x18#8, 0x18#8, 0x18#8, 0x18#8] =
    { bytes := [], pend := true, errors := [1, 3] } := by decide
theorem test_unescape_goes_on : unescape [0x18#8, 0x68#8, 0x41#8] = { bytes := [0x41#8], pend := false, errors := [1] } := by
  decide
/-- P1: the lines of steps 2 and 20, and a comment (30_encoding.md R55). -/
theorem test_assemble : assembleLine "SUM.UPD '1' ; first byte".toList = some [0x1131#16] ∧
    assembleLine "C16.UPD 0xBE".toList = some [0x21BE#16] ∧ assembleLine "; nothing".toList = some [] ∧
    assembleLine "SUM.RD 0x00".toList = none ∧ assembleLine "sum.rd".toList = none := by decide
theorem test_listing : listing 0x21BE#16 = "21BE".toList := by decide

/-! ## Witnesses: each meets all the hypotheses of the statement it is named after -/

/-- NopLeavesTheStateAndAnswersOk, at both ends of the range. -/
theorem witness_nop_neighbours : (0x0001 ≤ (0x0001#16).toNat ∧ (0x0001#16).toNat ≤ 0x00FF) ∧
    (0x0001 ≤ (0x00FF#16).toNat ∧ (0x00FF#16).toNat ≤ 0x00FF) := by decide
/-- RstResetsEverythingAndAloneClearsStickyBits. -/
theorem witness_not_rst : Instr.uneInit ≠ .rst := by decide
/-- C32UpdTakesOneCrc32Step. -/
theorem witness_short_message : ([0xFF#8, 0xFF#8, 0xFF#8] : List Byte).length < 4 := by decide
/-- EscapeSetsAreTheListedSets, at both ends of the range. -/
theorem witness_never_escaped : (0x20 ≤ (0x20#8).toNat ∧ (0x20#8).toNat ≤ 0x7F) ∧
    (0x20 ≤ (0x7F#8).toNat ∧ (0x7F#8).toNat ≤ 0x7F) := by decide
/-- EscapedOutputHasTheListedProperties: the clause on literals, the membership clause and the three ranges. -/
theorem witness_escape_literal : EscMode.controlChars ≠ .minimal ∧ escape1 0x20#8 .controlChars = [0x20#8] := by decide
theorem witness_escape_pair : escape1 0x80#8 .controlChars = [0x18#8, 0xC0#8] := by decide
theorem witness_escape_member : 0x18#8 ∈ escape [0x01#8] .controlChars ∧ 0x41#8 ∈ escape [0x01#8] .controlChars := by decide
theorem witness_escape_ranges : (0xC0 ≤ (0xDF#8).toNat ∧ (0xDF#8).toNat ≤ 0xDF) ∧ 0x80 ≤ (0x80#8).toNat ∧
    0xA0 ≤ (0xA0#8).toNat := by decide
/-- CanonicalBytesAreTheEncodersSecondBytes. -/
theorem witness_escaped_byte : 0x91#8 ∈ Params.escSet .minimal := by decide
/-- PendIsSetExactlyAfterAnOpeningZdle: an illegal word and a data byte of another unit stand between. -/
theorem witness_pend_stream : (HostInput.command 0x5000#16).restarts 0x5000#16 = true ∧
    ∀ x ∈ [HostInput.command 0x5118#16, .command 0x6000#16, .command 0x1131#16], x.restarts 0x5000#16 = false := by decide
/-- DecodeAndEncodeAgree and StepRunsTheDecodedCommand. -/
theorem witness_decodes : decode 0x51FF#16 = .instr (.uneDec 0xFF#8) := by decide
/-- ReservedWordsTakeTheIllegalCommandEvent, at the ends of two ranges. -/
theorem witness_reserved : wordReserved 0x4003#16 = true ∧ wordReserved 0xFFFF#16 = true := by decide
/-- UnitsTouchOnlyTheirOwnState: two states that differ everywhere but in C16. -/
theorem witness_units : (Instr.c16Upd 0x01#8).unit ≠ .sys ∧
    unitView (Instr.c16Upd 0x01#8).unit (testState 0x00#8 0xBE50#16 0xFFFFFFFF#32 .minimal false false false).block =
      unitView (Instr.c16Upd 0x01#8).unit (testState 0x24#8 0xBE50#16 0x00000000#32 .all8Bit true true true).block := by decide
/-- CommandsOfDifferentUnitsCommute. -/
theorem witness_different_units : (Instr.sumUpd 0x01#8).unit ≠ .sys ∧ (Instr.uneDec 0x18#8).unit ≠ .sys ∧
    (Instr.sumUpd 0x01#8).unit ≠ (Instr.uneDec 0x18#8).unit := by decide
/-- IllIsSetByIllegalWordsAloneAndIsSticky and UerrIsSetByMalformedEscapesAloneAndIsSticky. -/
theorem witness_not_rdst : (0x5118#16 : Word) ≠ 0x0200#16 := by decide
/-- OnlyUneDecCanReturnAnError. -/
theorem witness_not_uneDec : ∀ d, Instr.escEnc 0x18#8 ≠ .uneDec d := by intro d; simp
/-- EveryStepKeepsTheReports: a state with both sticky bits set and reported, from which a step goes on. -/
theorem witness_reports :
    Inv { v11State .minimal true true true with inputs := [.command 0x5141#16], responses := [⟨.illegal, []⟩, ⟨.escErr, []⟩] } ∧
      step { v11State .minimal true true true with inputs := [.command 0x5141#16], responses := [⟨.illegal, []⟩, ⟨.escErr, []⟩] } =
        .next { v11State .minimal true true false with responses := [⟨.illegal, []⟩, ⟨.escErr, []⟩, ⟨.ok, [0x01#8]⟩] } :=
  ⟨⟨by decide, fun _ => ⟨⟨.illegal, []⟩, by decide⟩, fun _ => ⟨⟨.escErr, []⟩, by decide⟩⟩, rfl⟩
/-- Sum8LawsHold: a permutation, and two bytes that differ. -/
theorem witness_perm : List.Perm [0x01#8, 0x02#8] [0x02#8, 0x01#8] ∧ (0x01#8 : Byte) ≠ 0x02#8 := by decide
/-- SumStreamsSum8, C16StreamsCrc16, C32StreamsCrc32: a start, and inputs of other units, reads and an illegal word between. -/
theorem witness_sum_stream : HostInput.hardwareReset.restarts 0x1000#16 = true ∧
    ∀ x ∈ [HostInput.command 0x1131#16, .command 0x2000#16, .command 0x1200#16, .command 0x1132#16],
      x.restarts 0x1000#16 = false := by decide
theorem witness_c16_stream : (HostInput.command 0x2000#16).restarts 0x2000#16 = true ∧
    ∀ x ∈ [HostInput.command 0x2101#16, .command 0x2205#16, .command 0x1000#16], x.restarts 0x2000#16 = false := by decide
theorem witness_c32_stream : (HostInput.command 0x0100#16).restarts 0x3000#16 = true ∧
    ∀ x ∈ [HostInput.command 0x310A#16, .command 0x5000#16, .command 0x3200#16], x.restarts 0x3000#16 = false := by decide
/-- Crc16IsLinearAndHasResidueZero and Crc32IsAffineAndHasItsResidue. -/
theorem witness_equal_lengths : ([0x12#8, 0x34#8] : List Byte).length = ([0xAB#8, 0xCD#8] : List Byte).length := by decide
/-- CrcsDetectEverySingleByteChange. -/
theorem witness_changed_byte : (0x23#8 : Byte) ≠ 0x22#8 := by decide
/-- PseudoInstructionsYieldTheirResults, its last clause: a decoding in which every response is OK. -/
theorem witness_all_ok : (unescape [0x18#8, 0x41#8]).errors = [] := by decide

end Sys2Proof.Machine
end

/-! # Facts about the encoding -/

namespace Sys2Proof

/-- A word is its three fields, from the top down (30_encoding.md R48). -/
theorem toNat_eq_fields (w : Word) :
    w.toNat = 4096 * (unitField w).toNat + 256 * (funcField w).toNat + (lowByte w).toNat := by
  simp only [unitField, funcField, lowByte, BitVec.extractLsb'_toNat, Nat.shiftRight_eq_div_pow]
  omega

/-- A word is its two bytes. -/
theorem toNat_eq_bytes (w : Word) : w.toNat = 256 * (w.extractLsb' 8 8).toNat + (lowByte w).toNat := by
  simp only [lowByte, BitVec.extractLsb'_toNat, Nat.shiftRight_eq_div_pow]
  omega

theorem unitField_wordB (p : Word) (d : Byte) : unitField (wordB p d) = unitField p := by
  ext k hk
  have hd : d.getLsbD (12 + k) = false := BitVec.getLsbD_of_ge d _ (by omega)
  simp [unitField, wordB, hd]

theorem funcField_wordB (p : Word) (d : Byte) : funcField (wordB p d) = funcField p := by
  ext k hk
  simp [funcField, wordB]

theorem toNat_wordB (p : Word) (d : Byte) (h : lowByte p = 0x00#8) : (wordB p d).toNat = p.toNat + d.toNat := by
  rw [toNat_eq_fields, toNat_eq_fields p, unitField_wordB, funcField_wordB, lowByte_wordB p d h, h]
  simp

theorem highByte_wordB (p : Word) (d : Byte) : (wordB p d).extractLsb' 8 8 = p.extractLsb' 8 8 := by
  ext k hk
  simp [wordB]

/-- The words of a format B row, by their two bytes (30_encoding.md R47, R50). -/
theorem eq_wordB_iff {p : Word} (hp : lowByte p = 0x00#8) (w : Word) (d : Byte) :
    w = wordB p d ↔ w.extractLsb' 8 8 = p.extractLsb' 8 8 ∧ lowByte w = d := by
  constructor
  · rintro rfl
    exact ⟨highByte_wordB p d, lowByte_wordB p d hp⟩
  · rintro ⟨hhigh, rfl⟩
    apply BitVec.eq_of_toNat_eq
    rw [toNat_wordB _ _ hp, toNat_eq_bytes w, toNat_eq_bytes p, hhigh, hp]
    simp

/-- Format B written as a sum, as the statements write it. -/
theorem wordB_eq_add (p : Word) (d : Byte) (h : lowByte p = 0x00#8) : wordB p d = p + d.setWidth 16 := by
  apply BitVec.eq_of_toNat_eq
  have hlt := (wordB p d).isLt
  rw [toNat_wordB p d h] at hlt ⊢
  rw [BitVec.toNat_add, BitVec.toNat_setWidth_of_le (by omega), Nat.mod_eq_of_lt hlt]

theorem decode_encode (i : Instr) : decode (encode i) = .instr i := by
  cases i <;>
    simp (disch := decide) only [encode, decode, unitField_wordB, funcField_wordB, lowByte_wordB] <;> rfl

/-- Every leaf of the decoder that answers a command fixes the fields of the word to those of that command's word. -/
theorem encode_of_decode {w : Word} {i : Instr} (h : decode w = .instr i) : encode i = w := by
  have hw := toNat_eq_fields w
  simp only [decode, decodeSys, decodeSum, decodeC16, decodeC32, decodeEsc, decodeUne, decodeN, decodeMode] at h
  repeat' split at h
  all_goals cases h
  all_goals
    apply BitVec.eq_of_toNat_eq
    simp (disch := decide) [encode, toNat_wordB, *]

/-- Each command has exactly one word (30_encoding.md R53). -/
theorem decode_eq_instr_iff (w : Word) (i : Instr) : decode w = .instr i ↔ w = encode i :=
  ⟨fun h => (encode_of_decode h).symm, fun h => h ▸ decode_encode i⟩

/-- The word of RST, as the statements write it. -/
theorem eq_rstWord_iff (w : Word) : w = 0x0100#16 ↔ decode w = .instr .rst :=
  (decode_eq_instr_iff w .rst).symm

/-- The word of UNE.DEC, as the statements write it. -/
theorem eq_uneDecWord_iff (w : Word) (d : Byte) : w = 0x5100#16 + d.setWidth 16 ↔ decode w = .instr (.uneDec d) := by
  rw [← wordB_eq_add 0x5100#16 d (by decide)]
  exact (decode_eq_instr_iff w (.uneDec d)).symm

/-- The ranges of 30_encoding.md R52 that belong to one clause of that rule. -/
def reservedClause : Reserved → Word → Bool
  | .unit => reservedUnit
  | .func => reservedFunc
  | .lowByte => reservedLowByte
  | .mode => reservedMode

theorem wordReserved_of_clause {why : Reserved} {w : Word} (h : reservedClause why w = true) :
    wordReserved w = true := by
  cases why <;> simp_all [reservedClause, wordReserved]

/-- The clause the decoder names is the one in whose ranges the word lies. -/
theorem reservedClause_of_decode {why : Reserved} {w : Word} (h : decode w = .reserved why) :
    reservedClause why w = true := by
  have hw := toNat_eq_fields w
  have hf := (funcField w).isLt
  have hz := (lowByte w).isLt
  simp only [decode, decodeSys, decodeSum, decodeC16, decodeC32, decodeEsc, decodeUne, decodeN, decodeMode,
    BitVec.toNat_eq] at h
  repeat' split at h
  all_goals cases h
  all_goals
    simp [reservedClause, reservedUnit, reservedFunc, reservedLowByte, reservedMode, wordIn] at *
    omega

/-- No command's word lies in a reserved range; of the format B commands, whatever the operand. -/
theorem wordReserved_encode (i : Instr) : wordReserved (encode i) = false := by
  cases i
  case sumUpd d | c16Upd d | c32Upd d | escEnc d | uneDec d =>
    have hd : d.toNat < 256 := d.isLt
    simp (disch := decide) [encode, toNat_wordB, wordReserved, reservedUnit, reservedFunc, reservedLowByte,
      reservedMode, wordIn]
    omega
  all_goals decide

theorem wordReserved_of_decode_instr {w : Word} {i : Instr} (h : decode w = .instr i) : wordReserved w = false :=
  encode_of_decode h ▸ wordReserved_encode i

theorem wordReserved_of_decode_reserved {w : Word} {why : Reserved} (h : decode w = .reserved why) :
    wordReserved w = true :=
  wordReserved_of_clause (reservedClause_of_decode h)

end Sys2Proof

/-! # What one command, one word and one input make of the block -/

namespace Sys2Proof.Machine

@[simp] theorem Block.withIll_uerr (v : Bool) (b : Block) : (b.withIll v).csr.uerr = b.csr.uerr := rfl
@[simp] theorem Block.withIll_pend (v : Bool) (b : Block) : (b.withIll v).csr.pend = b.csr.pend := rfl
@[simp] theorem Block.withMode_uerr (m : EscMode) (b : Block) : (b.withMode m).csr.uerr = b.csr.uerr := rfl

/-- The one function of 10_state.md R13, on commands: the block a command leaves and its response. `exec_eq_answered` says
that `exec` is this function. -/
def commandStep (b : Block) : Instr → Block × Response
  | .nop => (b, ⟨.ok, []⟩)
  | .rst => (Block.reset, ⟨.ok, []⟩)
  | .rdst => (b, ⟨.ok, [b.csr.toByte]⟩)
  | .sumInit => ({ b with sum := Params.sumInit }, ⟨.ok, []⟩)
  | .sumUpd d => ({ b with sum := sum8Step b.sum d }, ⟨.ok, []⟩)
  | .sumRd => (b, ⟨.ok, sumBytes b.sum⟩)
  | .c16Init => ({ b with c16 := Params.c16Init }, ⟨.ok, []⟩)
  | .c16Upd d => ({ b with c16 := crc16Step b.c16 d }, ⟨.ok, []⟩)
  | .c16Rd => (b, ⟨.ok, bytesHighFirst (b.c16 ^^^ Params.c16Xorout)⟩)
  | .c32Init => ({ b with c32 := Params.c32Init }, ⟨.ok, []⟩)
  | .c32Upd d => ({ b with c32 := crc32Step b.c32 d }, ⟨.ok, []⟩)
  | .c32Rd => (b, ⟨.ok, bytesLowFirst (b.c32 ^^^ Params.c32Xorout)⟩)
  | .escMin => (b.withMode .minimal, ⟨.ok, []⟩)
  | .escCtl => (b.withMode .controlChars, ⟨.ok, []⟩)
  | .escA8b => (b.withMode .all8Bit, ⟨.ok, []⟩)
  | .escEnc d => (b, ⟨.ok, escape1 d b.csr.mode⟩)
  | .uneInit => ({ b with csr := { b.csr with pend := false } }, ⟨.ok, []⟩)
  | .uneDec d =>
    let o := uneStep b.csr.pend d
    ({ b with csr := { b.csr with pend := o.pend, uerr := b.csr.uerr || o.code == .escErr } },
      ⟨o.code, o.byte.toList⟩)

/-- The one function of 10_state.md R13, on words: an illegal word sets ILL (60_exceptions.md R125).
`executeWord_eq_answered` says that `executeWord` is this function. -/
def wordStep (b : Block) (w : Word) : Block × Response :=
  match decode w with
  | .instr i => commandStep b i
  | .reserved _ => (b.withIll true, ⟨.illegal, []⟩)

/-- The block an input leaves (`takeInput_eq`). -/
def inputBlock (b : Block) : HostInput → Block
  | .command w => (wordStep b w).1
  | .hardwareReset => Block.reset

/-- The responses a list of inputs is given, from block `b` on (`runInputs_eq`). -/
def inputResponses : Block → List HostInput → List Response
  | _, [] => []
  | b, .command w :: xs => (wordStep b w).2 :: inputResponses (wordStep b w).1 xs
  | _, .hardwareReset :: xs => inputResponses Block.reset xs

/-- UNE.DEC is one `une_step` on PEND, and an ESCERR outcome sets UERR (45_escape_decoder.md R115). -/
theorem execUneDec_eq (d : Byte) (s : State) :
    execUneDec d s = .next (s.answered (commandStep s.block (.uneDec d)).1 (commandStep s.block (.uneDec d)).2.code
      (commandStep s.block (.uneDec d)).2.bytes) := by
  obtain ⟨⟨sum, c16, c32, ⟨mode, uerr, ill, pend⟩⟩, inputs, responses⟩ := s
  cases pend with
  | false =>
    by_cases hd : d = Params.zdle <;>
      simp [execUneDec, commandStep, uneStep, hd, respond_eq_answered, State.answered, State.setPend]
  | true =>
    cases hc : canonical d <;>
      simp [execUneDec, commandStep, uneStep, hc, respond_eq_answered, escapeError_eq_answered, State.answered,
        State.setPend]

theorem exec_eq_answered (i : Instr) (s : State) :
    exec i s = .next (s.answered (commandStep s.block i).1 (commandStep s.block i).2.code
      (commandStep s.block i).2.bytes) := by
  cases i with
  | uneDec d => exact execUneDec_eq d s
  | _ => rfl

theorem wordStep_of_instr {w : Word} {i : Instr} (h : decode w = .instr i) (b : Block) :
    wordStep b w = commandStep b i := by
  simp [wordStep, h]

theorem wordStep_of_reserved {w : Word} {why : Reserved} (h : decode w = .reserved why) (b : Block) :
    wordStep b w = (b.withIll true, ⟨.illegal, []⟩) := by
  simp [wordStep, h]

@[simp] theorem wordStep_encode (b : Block) (i : Instr) : wordStep b (encode i) = commandStep b i :=
  wordStep_of_instr (decode_encode i) b

theorem executeWord_eq_answered (w : Word) (s : State) :
    executeWord w s = .next (s.answered (wordStep s.block w).1 (wordStep s.block w).2.code
      (wordStep s.block w).2.bytes) := by
  cases h : decode w with
  | instr i => rw [executeWord_of_instr h, wordStep_of_instr h, exec_eq_answered]
  | reserved why => rw [executeWord_of_reserved h, wordStep_of_reserved h, illegalCommand_eq_answered]

theorem takeInput_eq (x : HostInput) (s : State) :
    takeInput x s = .next { block := inputBlock s.block x, inputs := s.inputs
                            responses := s.responses ++ inputResponses s.block [x] } := by
  cases x with
  | command w => exact executeWord_eq_answered w s
  | hardwareReset => simp [takeInput, hardwareReset_eq, inputBlock, inputResponses]

theorem step_input (x : HostInput) (rest : List HostInput) (s : State) :
    step { s with inputs := x :: rest } =
      .next { block := inputBlock s.block x, inputs := rest
              responses := s.responses ++ inputResponses s.block [x] } :=
  takeInput_eq x { s with inputs := rest }

theorem inputResponses_cons (b : Block) (x : HostInput) (xs : List HostInput) :
    inputResponses b (x :: xs) = inputResponses b [x] ++ inputResponses (inputBlock b x) xs := by
  cases x <;> rfl

/-- Every run comes to its end: the block is folded over the inputs and the responses are appended in order. -/
theorem runInputs_eq (xs : List HostInput) (s : State) :
    runInputs xs s = .next { block := xs.foldl inputBlock s.block, inputs := s.inputs
                             responses := s.responses ++ inputResponses s.block xs } := by
  induction xs generalizing s with
  | nil => simp [inputResponses]
  | cons x xs ih =>
    have hx (ins : List HostInput) : takeInput x { s with inputs := ins } =
        .next { block := inputBlock s.block x, inputs := ins
                responses := s.responses ++ inputResponses s.block [x] } := takeInput_eq x _
    rw [runInputs_cons xs hx, ih, inputResponses_cons s.block x xs]
    simp

theorem inputResponses_map_command (ws : List Word) (b : Block) :
    inputResponses b (ws.map .command) = foldResponses wordStep b ws := by
  induction ws generalizing b with
  | nil => rfl
  | cons w ws ih => simp [inputResponses, foldResponses, ih]

/-- A run over command words is the left fold of `wordStep` (10_state.md R13, 20_memory.md R39). -/
theorem runInputs_words (ws : List Word) (s : State) :
    runInputs (ws.map .command) s =
      .next { block := ws.foldl (fun b w => (wordStep b w).1) s.block, inputs := s.inputs
              responses := s.responses ++ foldResponses wordStep s.block ws } := by
  rw [runInputs_eq, List.foldl_map, inputResponses_map_command]
  rfl

/-- A run over commands is the left fold of `commandStep`. -/
theorem runInputs_commandsOf (is : List Instr) (s : State) :
    runInputs (commandsOf is) s =
      .next { block := is.foldl (fun b i => (commandStep b i).1) s.block, inputs := s.inputs
              responses := s.responses ++ foldResponses wordStep s.block (is.map encode) } := by
  have hwords : commandsOf is = (is.map encode).map .command := by simp [commandsOf]
  rw [hwords, runInputs_words, List.foldl_map]
  simp

end Sys2Proof.Machine

/-! # Left folds of one command function -/

namespace Sys2Proof.Machine

/-- Settles O35: `wordStep` is the function. -/
theorem runsAreLeftFoldsOfOneCommandFunction : Obligations.RunsAreLeftFoldsOfOneCommandFunction :=
  ⟨wordStep, runInputs_words⟩

end Sys2Proof.Machine

/-! # The units' own state -/

namespace Sys2Proof.Machine

theorem commandStep_ill {i : Instr} (h : i ≠ .rst) (b : Block) : (commandStep b i).1.csr.ill = b.csr.ill := by
  cases i with
  | rst => exact absurd rfl h
  | _ => rfl

/-- A unit's command writes no other unit's state (10_state.md R30). -/
theorem unitView_commandStep_of_ne {i : Instr} {u : UnitName} (b : Block) (hi : i.unit ≠ .sys) (hu : u ≠ .sys)
    (hne : u ≠ i.unit) : unitView u (commandStep b i).1 = unitView u b := by
  cases i with
  | nop | rst | rdst => exact absurd rfl hi
  | _ => cases u <;> simp_all [Instr.unit, unitView, commandStep, Block.withMode]

/-- What a command reads lies in its own unit's state: that state after it, and its response, are a function of that
state before it (10_state.md R30). For SYS that is the whole block. -/
theorem commandStep_congr {i : Instr} {a b : Block} (h : unitView i.unit a = unitView i.unit b) :
    unitView i.unit (commandStep a i).1 = unitView i.unit (commandStep b i).1 ∧
      (commandStep a i).2 = (commandStep b i).2 := by
  cases i <;> simp_all [unitView, Instr.unit, commandStep, Block.withMode]

/-- The five units' states and ILL are all of the block. -/
theorem block_ext_of_unitView {a b : Block} (hview : ∀ u, u ≠ .sys → unitView u a = unitView u b)
    (hill : a.csr.ill = b.csr.ill) : a = b := by
  obtain ⟨sum, c16, c32, ⟨mode, uerr, ill, pend⟩⟩ := a
  obtain ⟨sum', c16', c32', ⟨mode', uerr', ill', pend'⟩⟩ := b
  have hsum := hview .sum (by simp)
  have hc16 := hview .c16 (by simp)
  have hc32 := hview .c32 (by simp)
  have hesc := hview .esc (by simp)
  have hune := hview .une (by simp)
  simp_all [unitView]

/-- Settles O36: the frame of a unit's command and what it depends on. -/
theorem unitsTouchOnlyTheirOwnState : Obligations.UnitsTouchOnlyTheirOwnState := by
  intro i s t hi hst
  obtain ⟨hview, hresp⟩ := commandStep_congr hst
  have hrst : i ≠ .rst := by rintro rfl; exact hi rfl
  refine ⟨_, _, _, _, exec_eq_answered i s, ?_, hview, commandStep_ill hrst _,
    fun u hu hne => unitView_commandStep_of_ne _ hi hu hne⟩
  rw [hresp, exec_eq_answered]

section Commute
variable {i j : Instr} (hi : i.unit ≠ .sys) (hj : j.unit ≠ .sys) (hij : i.unit ≠ j.unit)
include hi hj hij

/-- A command of another unit leaves what `i` reads as it was. -/
theorem commandStep_congr_of_other_unit (b : Block) :
    unitView i.unit (commandStep (commandStep b j).1 i).1 = unitView i.unit (commandStep b i).1 ∧
      (commandStep (commandStep b j).1 i).2 = (commandStep b i).2 :=
  commandStep_congr (unitView_commandStep_of_ne b hj hi hij)

/-- The two orders leave the same state in every unit: `i` decides its own, `j` decides its own, and neither the
others'. -/
theorem commandStep_comm (b : Block) :
    (commandStep (commandStep b j).1 i).1 = (commandStep (commandStep b i).1 j).1 := by
  have hiOwn := (commandStep_congr_of_other_unit hi hj hij b).1
  have hjOwn := (commandStep_congr_of_other_unit hj hi hij.symm b).1
  apply block_ext_of_unitView
  · intro u hu
    by_cases hui : u = i.unit
    · subst hui
      rw [hiOwn, unitView_commandStep_of_ne _ hj hi hij]
    · by_cases huj : u = j.unit
      · subst huj
        rw [hjOwn, unitView_commandStep_of_ne _ hi hj hij.symm]
      · rw [unitView_commandStep_of_ne _ hi hu hui, unitView_commandStep_of_ne _ hj hu huj,
          unitView_commandStep_of_ne _ hj hu huj, unitView_commandStep_of_ne _ hi hu hui]
  · have hirst : i ≠ .rst := by rintro rfl; exact hi rfl
    have hjrst : j ≠ .rst := by rintro rfl; exact hj rfl
    simp only [commandStep_ill hirst, commandStep_ill hjrst]

end Commute

/-- Settles O37: the blocks by `commandStep_comm`, the responses because neither command writes what the other reads. -/
theorem commandsOfDifferentUnitsCommute : Obligations.CommandsOfDifferentUnitsCommute := by
  intro i j s hi hj hij
  refine ⟨(commandStep (commandStep s.block i).1 j).1, (commandStep s.block i).2, (commandStep s.block j).2, ?_, ?_⟩
  · simp [runInputs_commandsOf, foldResponses, (commandStep_congr_of_other_unit hj hi hij.symm s.block).2]
  · simp [runInputs_commandsOf, foldResponses, (commandStep_congr_of_other_unit hi hj hij s.block).2,
      commandStep_comm hi hj hij]

end Sys2Proof.Machine

/-! # The sticky bits -/

namespace Sys2Proof.Machine

/-- ILL does not reach what a command other than RDST does (10_state.md R22). -/
theorem commandStep_withIll {i : Instr} (h : i ≠ .rdst) (b : Block) (v : Bool) : ∃ v',
    commandStep (b.withIll v) i = ((commandStep b i).1.withIll v', (commandStep b i).2) := by
  cases i with
  | rdst => exact absurd rfl h
  | rst => exact ⟨false, rfl⟩
  | _ => exact ⟨v, rfl⟩

/-- UERR does not reach what a command other than RDST does (10_state.md R23). -/
theorem commandStep_withUerr {i : Instr} (h : i ≠ .rdst) (b : Block) (v : Bool) : ∃ v',
    commandStep (b.withUerr v) i = ((commandStep b i).1.withUerr v', (commandStep b i).2) := by
  cases i with
  | rdst => exact absurd rfl h
  | rst => exact ⟨false, rfl⟩
  | uneDec d => exact ⟨v || (uneStep b.csr.pend d).code == .escErr, rfl⟩
  | _ => exact ⟨v, rfl⟩

/-- The word of RDST is the only one that decodes to it (0x0200). -/
theorem ne_rdst_of_decode {w : Word} {i : Instr} (hw : w ≠ 0x0200#16) (h : decode w = .instr i) : i ≠ .rdst := by
  rintro rfl
  exact hw (encode_of_decode h).symm

theorem wordStep_withIll {w : Word} (hw : w ≠ 0x0200#16) (b : Block) (v : Bool) : ∃ v',
    wordStep (b.withIll v) w = ((wordStep b w).1.withIll v', (wordStep b w).2) := by
  cases h : decode w with
  | instr i => simpa only [wordStep_of_instr h] using commandStep_withIll (ne_rdst_of_decode hw h) b v
  | reserved why => exact ⟨true, by simp only [wordStep_of_reserved h]; rfl⟩

theorem wordStep_withUerr {w : Word} (hw : w ≠ 0x0200#16) (b : Block) (v : Bool) : ∃ v',
    wordStep (b.withUerr v) w = ((wordStep b w).1.withUerr v', (wordStep b w).2) := by
  cases h : decode w with
  | instr i => simpa only [wordStep_of_instr h] using commandStep_withUerr (ne_rdst_of_decode hw h) b v
  | reserved why => exact ⟨v, by simp only [wordStep_of_reserved h]; rfl⟩

theorem commandStep_ill_iff (b : Block) (i : Instr) :
    (commandStep b i).1.csr.ill = true ↔ (b.csr.ill = true ∧ i ≠ .rst) := by
  by_cases hi : i = .rst
  · simp [hi, commandStep, Block.reset]
  · simp [hi, commandStep_ill hi]

/-- After an input ILL is 1 when the word was illegal, and else only if it stood and nothing reset it
(10_state.md R22). -/
theorem inputBlock_ill_iff (b : Block) (x : HostInput) :
    (inputBlock b x).csr.ill = true ↔
      ((∃ w, x = .command w ∧ wordReserved w = true) ∨
        (b.csr.ill = true ∧ x ≠ .command 0x0100#16 ∧ x ≠ .hardwareReset)) := by
  cases x with
  | hardwareReset => simp [inputBlock, Block.reset]
  | command w =>
    cases h : decode w with
    | instr i =>
      simp [inputBlock, wordStep_of_instr h, wordReserved_of_decode_instr h, eq_rstWord_iff, h, commandStep_ill_iff]
    | reserved why => simp [inputBlock, wordStep_of_reserved h, wordReserved_of_decode_reserved h]

/-- Settles O38: the bit by `inputBlock_ill_iff`, its silence by `wordStep_withIll`. -/
theorem illIsSetByIllegalWordsAloneAndIsSticky : Obligations.IllIsSetByIllegalWordsAloneAndIsSticky := by
  refine ⟨fun x rest s => ⟨_, step_input x rest s, inputBlock_ill_iff s.block x⟩, fun w v s hw => ?_⟩
  obtain ⟨v', hstep⟩ := wordStep_withIll hw s.block v
  exact ⟨_, _, _, v', executeWord_eq_answered w s, by rw [executeWord_eq_answered, hstep]⟩

/-- The outcome ESCERR of one `une_step` (45_escape_decoder.md R111). -/
theorem uneStep_code_escErr (p : Bool) (d : Byte) :
    (uneStep p d).code = .escErr ↔ p = true ∧ canonical d = false := by
  cases p with
  | false => by_cases hd : d = Params.zdle <;> simp [uneStep, hd]
  | true => cases hc : canonical d <;> simp [uneStep, hc]

theorem commandStep_uerr_iff (b : Block) (i : Instr) :
    (commandStep b i).1.csr.uerr = true ↔
      ((∃ d, i = .uneDec d ∧ b.csr.pend = true ∧ canonical d = false) ∨
        (b.csr.uerr = true ∧ i ≠ .rst)) := by
  cases i with
  | rst => simp [commandStep, Block.reset]
  | uneDec d => simp [commandStep, uneStep_code_escErr, or_comm]
  | _ => simp [commandStep]

/-- After an input UERR is 1 when it was a malformed escape, and else only if it stood and nothing reset it
(10_state.md R23). -/
theorem inputBlock_uerr_iff (b : Block) (x : HostInput) :
    (inputBlock b x).csr.uerr = true ↔
      ((∃ d, x = .command (0x5100#16 + BitVec.setWidth 16 d) ∧ b.csr.pend = true ∧ canonical d = false) ∨
        (b.csr.uerr = true ∧ x ≠ .command 0x0100#16 ∧ x ≠ .hardwareReset)) := by
  cases x with
  | hardwareReset => simp [inputBlock, Block.reset]
  | command w =>
    cases h : decode w with
    | instr i => simp [inputBlock, wordStep_of_instr h, eq_rstWord_iff, eq_uneDecWord_iff, h, commandStep_uerr_iff]
    | reserved why =>
      simp [inputBlock, wordStep_of_reserved h, eq_rstWord_iff, eq_uneDecWord_iff, h]

/-- Settles O39: the bit by `inputBlock_uerr_iff`, its silence by `wordStep_withUerr`. -/
theorem uerrIsSetByMalformedEscapesAloneAndIsSticky : Obligations.UerrIsSetByMalformedEscapesAloneAndIsSticky := by
  refine ⟨fun x rest s => ⟨_, step_input x rest s, inputBlock_uerr_iff s.block x⟩, fun w v s hw => ?_⟩
  obtain ⟨v', hstep⟩ := wordStep_withUerr hw s.block v
  exact ⟨_, _, _, v', executeWord_eq_answered w s, by rw [executeWord_eq_answered, hstep]⟩

end Sys2Proof.Machine

/-! # PEND and the bytes given to UNE.DEC -/

namespace Sys2Proof.Machine

/-- The inputs that carry `d` for a format B command are that command's word with operand `d`. -/
theorem dataByte_command_eq_some_iff {p : Word} (hp : lowByte p = 0x00#8) (w : Word) (d : Byte) :
    (HostInput.command w).dataByte (p.extractLsb' 8 8) = some d ↔ w = wordB p d := by
  rw [eq_wordB_iff hp]
  simp [HostInput.dataByte, lowByte]

theorem dataByte_uneDec_iff (w : Word) (d : Byte) :
    (HostInput.command w).dataByte 0x51#8 = some d ↔ decode w = .instr (.uneDec d) :=
  (dataByte_command_eq_some_iff (p := 0x5100#16) rfl w d).trans (decode_eq_instr_iff w (.uneDec d)).symm

/-- Where every input that does not restart a unit folds its data byte, if it has one, into what `reg` reads, a list of
them folds the data bytes of the list. -/
theorem foldl_inputBlock_eq_foldl_dataBytes {α : Type} {reg : Block → α} {upd : α → Byte → α}
    {initWord : Word} {tag : Byte}
    (hstep : ∀ b x, x.restarts initWord = false →
      reg (inputBlock b x) = (x.dataByte tag).elim (reg b) (upd (reg b)))
    (xs : List HostInput) (b : Block) (hxs : ∀ x ∈ xs, x.restarts initWord = false) :
    reg (xs.foldl inputBlock b) = (dataBytes tag xs).foldl upd (reg b) := by
  induction xs generalizing b with
  | nil => rfl
  | cons x xs ih =>
    obtain ⟨hx, hrest⟩ := List.forall_mem_cons.mp hxs
    rw [List.foldl_cons, ih _ hrest, hstep b x hx]
    cases hd : x.dataByte tag <;> simp [dataBytes, hd]

/-- The pending bit of one `une_step`. -/
def pendStep (p : Bool) (d : Byte) : Bool := (uneStep p d).pend

/-- A ZDLE opens an escape unless one is open; every other byte leaves none open (45_escape_decoder.md R111). -/
theorem pendStep_eq (p : Bool) (d : Byte) : pendStep p d = (!p && d == 0x18#8) := by
  have hzdle : Params.zdle = 0x18#8 := rfl
  cases p with
  | false => by_cases hd : d = 0x18#8 <;> simp [pendStep, uneStep, hzdle, hd]
  | true => cases hc : canonical d <;> simp [pendStep, uneStep, hc]

theorem unescapeFrom_pend (w : List Byte) (n : Nat) (p : Bool) : (unescapeFrom n p w).pend = w.foldl pendStep p := by
  induction w generalizing n p with
  | nil => rfl
  | cons d w ih => exact ih _ _

/-- From no open escape, one is open at the end exactly when the run of ZDLE bytes there has odd length: each ZDLE of
the run turns PEND over, and the byte before the run cleared it. The list is the reversed stream, last byte first. -/
theorem foldr_pendStep_iff (r : List Byte) :
    r.foldr (fun d p => pendStep p d) false = true ↔ (r.takeWhile (fun d => d == 0x18#8)).length % 2 = 1 := by
  induction r with
  | nil => simp
  | cons d r ih =>
    by_cases hd : d = 0x18#8
    · have hturn : (d :: r).foldr (fun d p => pendStep p d) false = !r.foldr (fun d p => pendStep p d) false := by
        simp [pendStep_eq, hd]
      rw [hturn, Bool.not_eq_true', ← Bool.not_eq_true, ih]
      simp [hd]
      omega
    · simp [pendStep_eq, hd]

theorem foldl_pendStep_iff (w : List Byte) :
    w.foldl pendStep false = true ↔ (w.reverse.takeWhile (fun d => d == 0x18#8)).length % 2 = 1 := by
  rw [← List.foldr_reverse]
  exact foldr_pendStep_iff w.reverse

theorem commandStep_pend {i : Instr} (hrst : i ≠ .rst) (hinit : i ≠ .uneInit) (hdec : ∀ d, i ≠ .uneDec d)
    (b : Block) :
    (commandStep b i).1.csr.pend = b.csr.pend := by
  cases i with
  | rst => exact absurd rfl hrst
  | uneInit => exact absurd rfl hinit
  | uneDec d => exact absurd rfl (hdec d)
  | _ => rfl

/-- UNE.INIT, RST and a reset clear PEND. -/
theorem inputBlock_pend_of_restarts {x : HostInput} (hx : x.restarts 0x5000#16 = true) (b : Block) :
    (inputBlock b x).csr.pend = false := by
  simp only [HostInput.restarts, Bool.or_eq_true, beq_iff_eq] at hx
  obtain (rfl | rfl) | rfl := hx <;> rfl

/-- Between restarts PEND follows `une_step` on the bytes of the UNE.DEC words and no other input touches it. -/
theorem inputBlock_pend {x : HostInput} (b : Block) (hx : x.restarts 0x5000#16 = false) :
    (inputBlock b x).csr.pend = (x.dataByte 0x51#8).elim b.csr.pend (pendStep b.csr.pend) := by
  cases x with
  | hardwareReset => simp [HostInput.restarts] at hx
  | command w =>
    cases hd : (HostInput.command w).dataByte 0x51#8 with
    | some d => simp [inputBlock, wordStep_of_instr ((dataByte_uneDec_iff w d).mp hd), commandStep, pendStep]
    | none =>
      cases h : decode w with
      | reserved why => simp [inputBlock, wordStep_of_reserved h]
      | instr i =>
        have hdec (d : Byte) : i ≠ .uneDec d := by
          rintro rfl
          simp [(dataByte_uneDec_iff w d).mpr h] at hd
        have hw := encode_of_decode h
        have hrst : i ≠ .rst := by rintro rfl; simp [← hw, HostInput.restarts, encode] at hx
        have hinit : i ≠ .uneInit := by rintro rfl; simp [← hw, HostInput.restarts, encode] at hx
        simp [inputBlock, wordStep_of_instr h, commandStep_pend hrst hinit hdec]

/-- Settles O27: PEND is the fold of `une_step` over the decoder's bytes, and the fold is the parity of the last run. -/
theorem pendIsSetExactlyAfterAnOpeningZdle : Obligations.PendIsSetExactlyAfterAnOpeningZdle := by
  intro start xs s hstart hxs
  have hpend : (xs.foldl inputBlock (inputBlock s.block start)).csr.pend =
      (dataBytes 0x51#8 xs).foldl pendStep false := by
    rw [foldl_inputBlock_eq_foldl_dataBytes (reg := fun b => b.csr.pend) (fun b x => inputBlock_pend b) xs _ hxs,
      inputBlock_pend_of_restarts hstart]
  refine ⟨_, runInputs_eq (start :: xs) s, rfl, ?_, ?_⟩
  · exact hpend.trans (unescapeFrom_pend _ 0 false).symm
  · exact (Bool.eq_iff_iff.mp hpend).trans (foldl_pendStep_iff _)

end Sys2Proof.Machine

/-! # Reset values and the CSR byte -/

namespace Sys2Proof.Machine

/-- Settles O2: the fold of the five commands over any block overwrites all of it but UERR and ILL. -/
theorem resetValuesAreWhatTheInitCommandsWrite : Obligations.ResetValuesAreWhatTheInitCommandsWrite :=
  ⟨rfl, fun s => ⟨exec_eq_answered .rst s, _, runInputs_commandsOf _ s⟩⟩

/-- The fields a byte reads as: `Csr.toByte` undone, with 2 read for any MODE that is neither 0 nor 1. -/
def csrOfByte (v : Byte) : Csr where
  mode := if v.extractLsb' 4 2 = 0#2 then .minimal else if v.extractLsb' 4 2 = 1#2 then .controlChars else .all8Bit
  uerr := v.getLsbD 2
  ill := v.getLsbD 1
  pend := v.getLsbD 0

theorem toByte_csrOfByte : ∀ v : Byte, ((v &&& 0xC8#8) = 0x00#8 ∧ (v &&& 0x30#8) ≠ 0x30#8) →
    (csrOfByte v).toByte = v := by
  decide

/-- Every byte of a CSR is legal (10_state.md R24). -/
theorem toByte_legal (c : Csr) : (c.toByte &&& 0xC8#8) = 0x00#8 ∧ (c.toByte &&& 0x30#8) ≠ 0x30#8 := by
  obtain ⟨mode, uerr, ill, pend⟩ := c
  cases mode <;> cases uerr <;> cases ill <;> cases pend <;> decide

theorem exec_rdst_iff (s : State) (v : Byte) :
    exec .rdst s = .next (s.answered s.block .ok [v]) ↔ s.block.csr.toByte = v := by
  simp [exec_eq_answered, commandStep, State.answered]

/-- Settles O6: RDST answers the CSR byte, every CSR byte is legal, and `csrOfByte` gives a state for each legal byte. -/
theorem csrByteIsOneOfTheLegalValues : Obligations.CsrByteIsOneOfTheLegalValues := by
  intro v
  simp only [exec_rdst_iff]
  constructor
  · rintro ⟨s, rfl⟩
    exact toByte_legal _
  · intro hv
    exact ⟨{ State.reset with block := { Block.reset with csr := csrOfByte v } }, toByte_csrOfByte v hv⟩

end Sys2Proof.Machine

/-! # Responses, reads and repeated commands -/

namespace Sys2Proof.Machine

theorem exec_of_commandStep {i : Instr} {s : State} {b : Block} {code : RespCode} {bytes : List Byte}
    (h : commandStep s.block i = (b, ⟨code, bytes⟩)) : exec i s = .next (s.answered b code bytes) := by
  rw [exec_eq_answered, h]

/-- A byte is sent as itself, or escaped as two bytes (44_escape_encoder.md R101). -/
theorem escape1_length_mem (d : Byte) (mode : EscMode) : (escape1 d mode).length ∈ [1, 2] := by
  cases hd : escNeeded d mode <;> simp [escape1, hd]

/-- The `response bytes` column of 30_encoding.md R50 holds of every command, from every block. -/
theorem commandStep_length_mem (b : Block) (i : Instr) :
    (commandStep b i).2.bytes.length ∈ responseLengths i := by
  cases i with
  | escEnc d => exact escape1_length_mem d b.csr.mode
  | uneDec d =>
    have hbytes : (commandStep b (.uneDec d)).2.bytes = (uneStep b.csr.pend d).byte.toList := rfl
    rw [hbytes]
    cases (uneStep b.csr.pend d).byte <;> simp [responseLengths]
  | _ => exact List.mem_singleton.mpr rfl

/-- Settles O42: the lengths by `commandStep_length_mem`. Right after reset 'A' is sent and received as itself, and ZDLE
is escaped by the encoder and swallowed by the decoder. -/
theorem responsesHaveTheListedLengths : Obligations.ResponsesHaveTheListedLengths := by
  refine ⟨fun i s => ⟨_, _, _, exec_eq_answered i s, commandStep_length_mem s.block i⟩, ?_, ?_⟩
  · refine List.forall_mem_cons.mpr ⟨?_, List.forall_mem_singleton.mpr ?_⟩
    · exact ⟨0x41#8, .reset, _, [0x41#8], exec_of_commandStep (Prod.ext rfl (by decide)), rfl⟩
    · exact ⟨0x18#8, .reset, _, [0x18#8, 0x58#8], exec_of_commandStep (Prod.ext rfl (by decide)), rfl⟩
  · refine List.forall_mem_cons.mpr ⟨?_, List.forall_mem_singleton.mpr ?_⟩
    · exact ⟨0x18#8, .reset, _, [], exec_of_commandStep (Prod.ext rfl (by decide)), rfl⟩
    · exact ⟨0x41#8, .reset, _, [0x41#8], exec_of_commandStep (Prod.ext rfl (by decide)), rfl⟩

/-- A 32-bit value is its four bytes, as `bytesLowFirst` lists them. -/
theorem toNat_eq_four_bytes (v : Word32) :
    v.toNat = (v.extractLsb' 0 8).toNat + (v.extractLsb' 8 8).toNat * 2 ^ 8 +
      (v.extractLsb' 16 8).toNat * 2 ^ 16 + (v.extractLsb' 24 8).toNat * 2 ^ 24 := by
  simp only [BitVec.extractLsb'_toNat, Nat.shiftRight_eq_div_pow]
  omega

/-- Settles O16: the bytes are those of `toNat_eq_bytes` and `toNat_eq_four_bytes`, and C16_XOROUT is zero. -/
theorem readBytesMakeTheNumber : Obligations.ReadBytesMakeTheNumber := by
  intro s
  have hc16 : s.block.c16 ^^^ Params.c16Xorout = s.block.c16 := BitVec.xor_zero
  have hread : exec .c16Rd s = .next (s.answered s.block .ok (bytesHighFirst s.block.c16)) :=
    exec_of_commandStep (by simp only [commandStep, hc16])
  refine ⟨⟨_, _, hread, ?_⟩, ⟨_, _, _, _, exec_eq_answered .c32Rd s, (toNat_eq_four_bytes _).symm⟩⟩
  rw [toNat_eq_bytes s.block.c16, Nat.mul_comm]
  rfl

/-- Reads and NOP leave the block (20_memory.md R36). -/
theorem commandStep_read {i : Instr} (hi : i ∈ [Instr.sumRd, .c16Rd, .c32Rd, .rdst, .nop]) (b : Block) :
    ∃ bytes, commandStep b i = (b, ⟨.ok, bytes⟩) := by
  simp only [List.mem_cons, List.not_mem_nil, or_false] at hi
  obtain rfl | rfl | rfl | rfl | rfl := hi <;> exact ⟨_, rfl⟩

/-- INIT, RST and mode commands write constants only: the block they leave is one they leave as it is
(20_memory.md R36). -/
theorem commandStep_idempotent {i : Instr}
    (hi : i ∈ [Instr.sumInit, .c16Init, .c32Init, .uneInit, .rst, .escMin, .escCtl, .escA8b]) (b : Block) :
    ∃ b', commandStep b i = (b', ⟨.ok, []⟩) ∧ commandStep b' i = (b', ⟨.ok, []⟩) := by
  simp only [List.mem_cons, List.not_mem_nil, or_false] at hi
  obtain rfl | rfl | rfl | rfl | rfl | rfl | rfl | rfl := hi <;> exact ⟨_, rfl, rfl⟩

/-- Settles O43: a second command starts from the block the first one left, where `commandStep` gives the same again. -/
theorem readsChangeNothingAndInitsAreIdempotent : Obligations.ReadsChangeNothingAndInitsAreIdempotent := by
  refine ⟨fun i hi s => ?_, fun i hi s => ?_, fun d s => ⟨_, exec_eq_answered (.escEnc d) s⟩⟩
  · obtain ⟨bytes, h⟩ := commandStep_read hi s.block
    exact ⟨bytes, exec_of_commandStep h, exec_of_commandStep h⟩
  · obtain ⟨b, hfirst, hsecond⟩ := commandStep_idempotent hi s.block
    exact ⟨b, exec_of_commandStep hfirst, exec_of_commandStep hsecond⟩

end Sys2Proof.Machine

/-! # The opcode map -/

namespace Sys2Proof

/-- Two words are equal when both their bytes are. -/
theorem word_eq_iff_bytes (v w : Word) :
    v = w ↔ v.extractLsb' 8 8 = w.extractLsb' 8 8 ∧ lowByte v = lowByte w := by
  refine ⟨by rintro rfl; exact ⟨rfl, rfl⟩, fun ⟨hhigh, hlow⟩ => BitVec.eq_of_toNat_eq ?_⟩
  rw [toNat_eq_bytes v, toNat_eq_bytes w, hhigh, hlow]

theorem highByte_and_FF00 (w : Word) : (w &&& 0xFF00#16).extractLsb' 8 8 = w.extractLsb' 8 8 := by
  rw [BitVec.extractLsb'_and]
  exact BitVec.and_allOnes

theorem lowByte_and_FF00 (w : Word) : lowByte (w &&& 0xFF00#16) = 0x00#8 := by
  rw [lowByte, BitVec.extractLsb'_and]
  exact BitVec.and_zero

theorem and_FFFF (w : Word) : w &&& 0xFFFF#16 = w :=
  BitVec.and_allOnes

/-- The mask of format B compares the high bytes. -/
theorem and_FF00_eq_iff {p : Word} (hp : lowByte p = 0x00#8) (w : Word) :
    (w &&& 0xFF00#16) = p ↔ w = wordB p (lowByte w) := by
  rw [word_eq_iff_bytes, highByte_and_FF00, lowByte_and_FF00, hp, eq_wordB_iff hp]
  simp

/-- A row of the opcode map is of format N, its one word the pattern, or of format B, its words the pattern with any low
byte (30_encoding.md R48, R50). -/
theorem opcodeMap_format : ∀ r ∈ opcodeMap,
    (r.mask = 0xFFFF#16 ∧ ∀ d, encode (r.build d) = r.pattern) ∨
    (r.mask = 0xFF00#16 ∧ lowByte r.pattern = 0x00#8 ∧ ∀ d, encode (r.build d) = wordB r.pattern d) := by
  simp [opcodeMap, encode, lowByte]

theorem opcodeMap_mnemonic : ∀ r ∈ opcodeMap, ∀ d, (r.build d).mnemonic = r.mnemonic := by
  simp [opcodeMap, Instr.mnemonic]

theorem opcodeMap_mnemonics_pairwise : opcodeMap.Pairwise (fun r q => r.mnemonic ≠ q.mnemonic) := by
  decide

/-- Every command is the entry of a row (30_encoding.md R50). -/
theorem tableRow (i : Instr) : Laws.TableRow.Statement i := by
  cases i with
  | nop => exact Laws.TableRow.nop
  | rst => exact Laws.TableRow.rst
  | rdst => exact Laws.TableRow.rdst
  | sumInit => exact Laws.TableRow.sumInit
  | sumUpd d => exact Laws.TableRow.sumUpd d
  | sumRd => exact Laws.TableRow.sumRd
  | c16Init => exact Laws.TableRow.c16Init
  | c16Upd d => exact Laws.TableRow.c16Upd d
  | c16Rd => exact Laws.TableRow.c16Rd
  | c32Init => exact Laws.TableRow.c32Init
  | c32Upd d => exact Laws.TableRow.c32Upd d
  | c32Rd => exact Laws.TableRow.c32Rd
  | escMin => exact Laws.TableRow.escMin
  | escCtl => exact Laws.TableRow.escCtl
  | escA8b => exact Laws.TableRow.escA8b
  | escEnc d => exact Laws.TableRow.escEnc d
  | uneInit => exact Laws.TableRow.uneInit
  | uneDec d => exact Laws.TableRow.uneDec d

/-- A word belongs to a row exactly when it decodes to the row's command with the word's own low byte
(30_encoding.md R51). -/
theorem matches_iff_decode {r : OpcodeRow} (hr : r ∈ opcodeMap) (w : Word) :
    (w &&& r.mask) = r.pattern ↔ decode w = .instr (r.build (lowByte w)) := by
  rw [decode_eq_instr_iff]
  rcases opcodeMap_format r hr with ⟨hmask, henc⟩ | ⟨hmask, hlow, henc⟩
  · rw [hmask, henc, and_FFFF]
  · rw [hmask, henc, and_FF00_eq_iff hlow]

/-- A word decodes to a command exactly when a row holds it and makes that command of its low byte. -/
theorem decode_eq_instr_iff_row (w : Word) (i : Instr) :
    decode w = .instr i ↔ ∃ r ∈ opcodeMap, (w &&& r.mask) = r.pattern ∧ i = r.build (lowByte w) := by
  constructor
  · intro h
    obtain ⟨r, hr, -, hmatch, hbuild⟩ := tableRow i
    rw [encode_of_decode h] at hmatch hbuild
    exact ⟨r, hr, hmatch, hbuild.symm⟩
  · rintro ⟨r, hr, hmatch, rfl⟩
    exact (matches_iff_decode hr w).mp hmatch

/-- The commands of a word's row have one mnemonic, so a word has the mnemonic of one row only. -/
theorem mnemonic_eq_of_matches {r q : OpcodeRow} (hr : r ∈ opcodeMap) (hq : q ∈ opcodeMap) {w : Word}
    (hmr : (w &&& r.mask) = r.pattern) (hmq : (w &&& q.mask) = q.pattern) : r.mnemonic = q.mnemonic := by
  have hsame : r.build (lowByte w) = q.build (lowByte w) :=
    Decoded.instr.inj (((matches_iff_decode hr w).mp hmr).symm.trans ((matches_iff_decode hq w).mp hmq))
  rw [← opcodeMap_mnemonic r hr (lowByte w), hsame, opcodeMap_mnemonic q hq]

/-- No word belongs to two rows. -/
theorem opcodeMap_disjoint (w : Word) :
    opcodeMap.Pairwise (fun r q => ¬ ((w &&& r.mask) = r.pattern ∧ (w &&& q.mask) = q.pattern)) :=
  opcodeMap_mnemonics_pairwise.imp_of_mem fun hr hq hne ⟨hmr, hmq⟩ => hne (mnemonic_eq_of_matches hr hq hmr hmq)

theorem exists_row_iff_decodes (w : Word) :
    (∃ r ∈ opcodeMap, (w &&& r.mask) = r.pattern) ↔ ∃ i, decode w = .instr i := by
  simp only [decode_eq_instr_iff_row]
  constructor
  · rintro ⟨r, hr, hmatch⟩
    exact ⟨_, r, hr, hmatch, rfl⟩
  · rintro ⟨i, r, hr, hmatch, -⟩
    exact ⟨r, hr, hmatch⟩

/-- A word is a command or reserved, and not both. -/
theorem exists_reserved_iff (w : Word) : (∃ why, decode w = .reserved why) ↔ ¬ ∃ i, decode w = .instr i := by
  cases decode w <;> simp

/-- The words of the ranges of 30_encoding.md R52 are those the decoder reserves. -/
theorem wordReserved_iff (w : Word) : wordReserved w = true ↔ ¬ ∃ i, decode w = .instr i := by
  cases h : decode w with
  | instr i => simp [wordReserved_of_decode_instr h]
  | reserved why => simp [wordReserved_of_decode_reserved h]

/-- Settles O30: `decode_encode` and `encode_of_decode`; 0x2205 is C16.RD's word with a non-zero low byte. -/
theorem decodeAndEncodeAgree : Obligations.DecodeAndEncodeAgree := by
  refine ⟨decode_encode, fun _ _ => encode_of_decode, fun s => ?_⟩
  have hw : decode 0x2205#16 = .reserved .lowByte := by decide
  rw [Machine.executeWord_of_reserved hw, Machine.illegalCommand_eq_answered]

/-- Settles O29: `decode_eq_instr_iff_row`, `opcodeMap_disjoint`, and a word outside all rows is no command. -/
theorem decodingIsTheOpcodeMap : Obligations.DecodingIsTheOpcodeMap := by
  refine ⟨rfl, fun w => ⟨fun i => ?_, opcodeMap_disjoint w, ?_⟩⟩
  · rw [decode_eq_instr_iff_row]
    constructor
    · rintro ⟨r, hr, hmatch, rfl⟩
      exact ⟨r, hr, hmatch, rfl, opcodeMap_mnemonic r hr _⟩
    · rintro ⟨r, hr, hmatch, hbuild, -⟩
      exact ⟨r, hr, hmatch, hbuild⟩
  · rw [exists_reserved_iff, ← exists_row_iff_decodes]
    simp

/-- Settles O31: `wordReserved_iff`, and a word that decodes to no command executes as the illegal command event. -/
theorem reservedWordsTakeTheIllegalCommandEvent : Obligations.ReservedWordsTakeTheIllegalCommandEvent := by
  refine ⟨wordReserved_iff, fun w rest s hw => ?_⟩
  obtain ⟨why, h⟩ := (exists_reserved_iff w).mpr ((wordReserved_iff w).mp hw)
  rw [Machine.step_command, Machine.executeWord_of_reserved h, Machine.illegalCommand_eq_answered]
  rfl

/-- Settles O28: each word is the encoding of its command. -/
theorem writtenOutWordsDecode : Obligations.WrittenOutWordsDecode :=
  ⟨decode_encode .rst, decode_encode (.sumUpd 0x31#8), decode_encode .c16Rd, decode_encode (.c32Upd 0xFF#8),
    decode_encode .escA8b, decode_encode (.uneDec 0x18#8)⟩

/-- The words of a row: one of format N, 256 of format B. -/
def OpcodeRow.words (r : OpcodeRow) : List Word :=
  if r.mask = 0xFFFF#16 then [r.pattern] else List.ofFn (fun k => wordB r.pattern (BitVec.ofFin k))

theorem OpcodeRow.words_of_formatN {r : OpcodeRow} (h : r.mask = 0xFFFF#16) : r.words = [r.pattern] :=
  if_pos h

theorem OpcodeRow.words_of_formatB {r : OpcodeRow} (h : r.mask = 0xFF00#16) :
    r.words = List.ofFn (fun k => wordB r.pattern (BitVec.ofFin k)) :=
  if_neg (by rw [h]; decide)

theorem OpcodeRow.mem_words_iff {r : OpcodeRow} (hr : r ∈ opcodeMap) (w : Word) :
    w ∈ r.words ↔ (w &&& r.mask) = r.pattern := by
  rcases opcodeMap_format r hr with ⟨hmask, -⟩ | ⟨hmask, hlow, -⟩
  · rw [words_of_formatN hmask, List.mem_singleton, hmask, and_FFFF]
  · rw [words_of_formatB hmask, List.mem_ofFn', hmask, and_FF00_eq_iff hlow]
    constructor
    · rintro ⟨k, rfl⟩
      rw [lowByte_wordB _ _ hlow]
    · exact fun h => ⟨(lowByte w).toFin, h.symm⟩

theorem OpcodeRow.words_nodup {r : OpcodeRow} (hr : r ∈ opcodeMap) : r.words.Nodup := by
  rcases opcodeMap_format r hr with ⟨hmask, -⟩ | ⟨hmask, hlow, -⟩
  · exact words_of_formatN hmask ▸ List.nodup_singleton _
  · rw [words_of_formatB hmask, List.nodup_ofFn]
    intro j k hjk
    have hlows := congrArg lowByte hjk
    rw [lowByte_wordB _ _ hlow, lowByte_wordB _ _ hlow] at hlows
    exact congrArg BitVec.toFin hlows

theorem OpcodeRow.words_length (r : OpcodeRow) : r.words.length = if r.mask = 0xFFFF#16 then 1 else 256 := by
  unfold OpcodeRow.words
  split
  · rfl
  · exact List.length_ofFn

/-- All legal words, row by row. -/
def legalWords : List Word := opcodeMap.flatMap OpcodeRow.words

theorem mem_legalWords_iff (w : Word) : w ∈ legalWords ↔ ∃ i, decode w = .instr i := by
  rw [legalWords, List.mem_flatMap, ← exists_row_iff_decodes]
  exact exists_congr fun r => and_congr_right fun hr => OpcodeRow.mem_words_iff hr w

/-- Each row lists its words once and no two rows share a word. -/
theorem legalWords_nodup : legalWords.Nodup := by
  refine List.nodup_flatMap.mpr ⟨fun r hr => OpcodeRow.words_nodup hr, ?_⟩
  refine List.Pairwise.imp_of_mem (fun {r q} hr hq hne w hwr hwq => hne ?_) opcodeMap_mnemonics_pairwise
  exact mnemonic_eq_of_matches hr hq ((OpcodeRow.mem_words_iff hr w).mp hwr) ((OpcodeRow.mem_words_iff hq w).mp hwq)

theorem legalWords_length : legalWords.length = 1293 := by
  rw [legalWords, List.length_flatMap, List.map_congr_left (fun r _ => OpcodeRow.words_length r)]
  decide

theorem toOption_isSome_iff (w : Word) : (decode w).toOption.isSome = true ↔ ∃ i, decode w = .instr i := by
  cases decode w <;> simp [Decoded.toOption]

/-- The numbers that decode to a command are those of the legal words. -/
theorem legalNumbers_eq :
    (Finset.range 65536).filter (fun n => (decode (BitVec.ofNat 16 n)).toOption.isSome = true) =
      (legalWords.map BitVec.toNat).toFinset := by
  ext n
  simp only [Finset.mem_filter, Finset.mem_range, List.mem_toFinset, List.mem_map, toOption_isSome_iff,
    ← mem_legalWords_iff]
  constructor
  · rintro ⟨hn, hmem⟩
    exact ⟨_, hmem, Nat.mod_eq_of_lt hn⟩
  · rintro ⟨w, hmem, rfl⟩
    exact ⟨w.isLt, by simpa using hmem⟩

theorem card_legalNumbers :
    ((Finset.range 65536).filter (fun n => (decode (BitVec.ofNat 16 n)).toOption.isSome = true)).card = 1293 := by
  rw [legalNumbers_eq, List.toFinset_card_of_nodup, List.length_map, legalWords_length]
  exact legalWords_nodup.map fun _ _ => BitVec.eq_of_toNat_eq

/-- The reserved numbers below a bound are all that are no command's. For any bound, as the kernel would count the
words one by one at a given one. -/
theorem card_reservedBelow (bound : Nat) :
    ((Finset.range bound).filter (fun n => wordReserved (BitVec.ofNat 16 n) = true)).card =
      bound - ((Finset.range bound).filter (fun n => (decode (BitVec.ofNat 16 n)).toOption.isSome = true)).card := by
  have hsplit := Finset.card_filter_add_card_filter_not (s := Finset.range bound)
    (fun n => (decode (BitVec.ofNat 16 n)).toOption.isSome = true)
  rw [Finset.card_range] at hsplit
  simp only [wordReserved_iff, ← toOption_isSome_iff]
  omega

/-- Settles O32: `legalWords` lists every legal word once, and the reserved words are all the others. -/
theorem legalWordsAreCounted : Obligations.LegalWordsAreCounted := by
  refine ⟨card_legalNumbers, ?_⟩
  rw [card_reservedBelow, card_legalNumbers]

end Sys2Proof

namespace Sys2Proof.Machine

/-- A word that decodes is run from the state with the input taken away. -/
theorem step_of_decode {w : Word} {i : Instr} (h : decode w = .instr i) (rest : List HostInput) (s : State) :
    step { s with inputs := .command w :: rest } = exec i { s with inputs := rest } := by
  rw [step_command, executeWord_of_instr h]

/-- A word placed by its own number is that word, first of the inputs. -/
theorem withFetchWord_toNat (w : Word) (s : State) :
    s.withFetchWord 16 w.toNat = { s with inputs := .command w :: s.inputs } := by
  have hw : BitVec.ofNat 16 (tableBits 16 w.toNat) = w := by
    rw [tableBits, Nat.mod_eq_of_lt w.isLt, BitVec.ofNat_toNat, BitVec.setWidth_eq]
  rw [State.withFetchWord, giveTableWord, hw]

/-- Settles O33: `step_of_decode`, for an encoding by `decode_encode`. -/
theorem stepRunsTheDecodedCommand : Obligations.StepRunsTheDecodedCommand := by
  refine ⟨fun _ _ rest s h => step_of_decode h rest s, fun i => step_of_decode (decode_encode i), fun i s => ?_⟩
  rw [withFetchWord_toNat, step_of_decode (decode_encode i)]

end Sys2Proof.Machine

/-! # What the pseudo-instructions yield -/

namespace Sys2Proof.Machine

/-- The block a list of commands leaves. -/
def blockAfter (b : Block) (is : List Instr) : Block := is.foldl (fun b i => (commandStep b i).1) b

@[simp] theorem blockAfter_cons (b : Block) (i : Instr) (is : List Instr) :
    blockAfter b (i :: is) = blockAfter (commandStep b i).1 is := rfl

/-- The responses a list of commands is given. -/
def responsesTo (b : Block) (is : List Instr) : List Response := foldResponses wordStep b (is.map encode)

@[simp] theorem responsesTo_nil (b : Block) : responsesTo b [] = [] := rfl

@[simp] theorem responsesTo_cons (b : Block) (i : Instr) (is : List Instr) :
    responsesTo b (i :: is) = (commandStep b i).2 :: responsesTo (commandStep b i).1 is := by
  simp [responsesTo, foldResponses]

theorem runInputs_commandsOf_eq (is : List Instr) (s : State) :
    runInputs (commandsOf is) s =
      .next { block := blockAfter s.block is, inputs := s.inputs
              responses := s.responses ++ responsesTo s.block is } :=
  runInputs_commandsOf is s

/-- One response to each command. -/
theorem responsesTo_length (b : Block) (is : List Instr) : (responsesTo b is).length = is.length := by
  induction is generalizing b with
  | nil => rfl
  | cons i is ih => simp [ih]

/-- The response to the last command is the one it gives at the block the others leave. -/
theorem responsesTo_concat (b : Block) (is : List Instr) (i : Instr) :
    responsesTo b (is ++ [i]) = responsesTo b is ++ [(commandStep (blockAfter b is) i).2] := by
  induction is generalizing b with
  | nil => exact responsesTo_cons b i []
  | cons j is ih => simp [ih]

theorem getLast_of_runInputs_concat (is : List Instr) (i : Instr) (s : State) :
    ∃ t, runInputs (commandsOf (is ++ [i])) s = .next t ∧ t.inputs = s.inputs ∧
      t.responses.getLast? = some (commandStep (blockAfter s.block is) i).2 := by
  refine ⟨_, runInputs_commandsOf_eq _ s, rfl, ?_⟩
  simp [responsesTo_concat]

/-- Where a data command folds its byte into what `reg` reads, the commands of a message fold the message. -/
theorem reg_blockAfter_map {α : Type} {reg : Block → α} {upd : α → Byte → α} {op : Byte → Instr}
    (hstep : ∀ b d, reg (commandStep b (op d)).1 = upd (reg b) d) (m : List Byte) (b : Block) :
    reg (blockAfter b (m.map op)) = m.foldl upd (reg b) := by
  rw [blockAfter, List.foldl_map]
  exact (List.foldl_hom reg fun b d => (hstep b d).symm).symm

theorem sum_blockAfter_updates (m : List Byte) (b : Block) :
    (blockAfter b (m.map .sumUpd)).sum = m.foldl sum8Step b.sum :=
  reg_blockAfter_map (reg := Block.sum) (fun _ _ => rfl) m b

theorem c16_blockAfter_updates (m : List Byte) (b : Block) :
    (blockAfter b (m.map .c16Upd)).c16 = m.foldl crc16Step b.c16 :=
  reg_blockAfter_map (reg := Block.c16) (fun _ _ => rfl) m b

theorem c32_blockAfter_updates (m : List Byte) (b : Block) :
    (blockAfter b (m.map .c32Upd)).c32 = m.foldl crc32Step b.c32 :=
  reg_blockAfter_map (reg := Block.c32) (fun _ _ => rfl) m b

/-- `SUM.MSG` ends in the checksum of its bytes (30_encoding.md R56). -/
theorem sumMsg_result (m : List Byte) (s : State) :
    ∃ t, runInputs (commandsOf (sumMsg m)) s = .next t ∧ t.inputs = s.inputs ∧
      t.responses.getLast? = some ⟨.ok, [sum8 m]⟩ := by
  obtain ⟨t, hrun, hin, hlast⟩ := getLast_of_runInputs_concat (.sumInit :: m.map .sumUpd) .sumRd s
  refine ⟨t, hrun, hin, hlast.trans ?_⟩
  simp only [commandStep, blockAfter_cons, sum_blockAfter_updates]
  rfl

/-- `C16.MSG` ends in the CRC-16 of its bytes, high byte first (30_encoding.md R56). -/
theorem c16Msg_result (m : List Byte) (s : State) :
    ∃ t, runInputs (commandsOf (c16Msg m)) s = .next t ∧ t.inputs = s.inputs ∧
      t.responses.getLast? = some ⟨.ok, bytesHighFirst (crc16 m)⟩ := by
  obtain ⟨t, hrun, hin, hlast⟩ := getLast_of_runInputs_concat (.c16Init :: m.map .c16Upd) .c16Rd s
  refine ⟨t, hrun, hin, hlast.trans ?_⟩
  simp only [commandStep, blockAfter_cons, c16_blockAfter_updates]
  rfl

/-- `C32.MSG` ends in the CRC-32 of its bytes, low byte first (30_encoding.md R56). -/
theorem c32Msg_result (m : List Byte) (s : State) :
    ∃ t, runInputs (commandsOf (c32Msg m)) s = .next t ∧ t.inputs = s.inputs ∧
      t.responses.getLast? = some ⟨.ok, bytesLowFirst (crc32 m)⟩ := by
  obtain ⟨t, hrun, hin, hlast⟩ := getLast_of_runInputs_concat (.c32Init :: m.map .c32Upd) .c32Rd s
  refine ⟨t, hrun, hin, hlast.trans ?_⟩
  simp only [commandStep, blockAfter_cons, c32_blockAfter_updates]
  rfl

/-- ESC.ENC leaves the block, so MODE stays and each byte is escaped under it. -/
theorem blockAfter_escMsg (m : List Byte) (b : Block) : blockAfter b (escMsg m) = b := by
  induction m with
  | nil => rfl
  | cons d m ih => exact ih

theorem responsesTo_escMsg (m : List Byte) (b : Block) :
    responsesTo b (escMsg m) = m.map (fun d => ⟨.ok, escape1 d b.csr.mode⟩) := by
  induction m with
  | nil => rfl
  | cons d m ih => exact (responsesTo_cons b (.escEnc d) _).trans (congrArg _ ih)

/-- `ESC.MSG` answers OK throughout, with the escaped bytes in order (30_encoding.md R56). -/
theorem escMsg_result (m : List Byte) (s : State) :
    ∃ rs, runInputs (commandsOf (escMsg m)) s =
        .next { block := s.block, inputs := s.inputs, responses := s.responses ++ rs } ∧
      rs.length = m.length ∧ (∀ r ∈ rs, r.code = .ok) ∧ rs.flatMap Response.bytes = escape m s.block.csr.mode := by
  refine ⟨responsesTo s.block (escMsg m), ?_, ?_, ?_, ?_⟩
  · rw [runInputs_commandsOf_eq, blockAfter_escMsg]
  · simp [responsesTo_length, escMsg]
  · simp [responsesTo_escMsg]
  · simp [responsesTo_escMsg, escape, List.flatMap_map]

/-- The UNE.DEC commands of a wire message produce the bytes of `unescape`'s fold. -/
theorem responsesTo_uneDec_bytes (w : List Byte) (n : Nat) (b : Block) :
    (responsesTo b (w.map .uneDec)).flatMap Response.bytes = (unescapeFrom n b.csr.pend w).bytes := by
  induction w generalizing n b with
  | nil => rfl
  | cons d w ih =>
    rw [List.map_cons, responsesTo_cons, List.flatMap_cons, ih (n + 1)]
    rfl

/-- Where no response is ESCERR, the fold finds no error. -/
theorem unescapeFrom_errors_of_ok (w : List Byte) (n : Nat) (b : Block)
    (hok : ∀ r ∈ responsesTo b (w.map .uneDec), r.code = .ok) : (unescapeFrom n b.csr.pend w).errors = [] := by
  induction w generalizing n b with
  | nil => rfl
  | cons d w ih =>
    rw [List.map_cons, responsesTo_cons] at hok
    obtain ⟨hd, hw⟩ := List.forall_mem_cons.mp hok
    have hcode : (uneStep b.csr.pend d).code = .ok := hd
    have hrest := ih (n + 1) _ hw
    simpa [unescapeFrom, hcode, commandStep] using hrest

/-- `UNE.MSG`, where it answers OK throughout, yields the decoded bytes (30_encoding.md R56). -/
theorem uneMsg_result (m : List Byte) (s : State) :
    ∃ t rs, runInputs (commandsOf (uneMsg m)) s = .next t ∧ t.inputs = s.inputs ∧
      t.responses = s.responses ++ rs ∧ rs.length = m.length + 1 ∧
      ((∀ r ∈ rs, r.code = .ok) → rs.flatMap Response.bytes = (unescape m).bytes ∧ (unescape m).errors = []) := by
  refine ⟨_, _, runInputs_commandsOf_eq _ s, rfl, rfl, ?_, fun hok => ?_⟩
  · simp [responsesTo_length, uneMsg]
  · rw [uneMsg, responsesTo_cons] at hok ⊢
    exact ⟨responsesTo_uneDec_bytes m 0 _, unescapeFrom_errors_of_ok m 0 _ (List.forall_mem_cons.mp hok).2⟩

/-- Settles O57, one pseudo-instruction each. -/
theorem pseudoInstructionsYieldTheirResults : Obligations.PseudoInstructionsYieldTheirResults :=
  fun m s => ⟨sumMsg_result m s, c16Msg_result m s, c32Msg_result m s, escMsg_result m s, uneMsg_result m s⟩

end Sys2Proof.Machine

/-! # Assembling a line -/

namespace Sys2Proof.Machine

/-- A character that stands for itself within a token: no separator, no comment sign, no quote. -/
def plainChar (c : Char) : Bool := c != ';' && c != ' ' && c != '\t' && c != '\''

/-- A plain character joins the token being read. -/
theorem lexLine_plain {c : Char} (hc : plainChar c = true) (cur rest : List Char) :
    lexLine cur (c :: rest) = lexLine (cur ++ [c]) rest := by
  simp only [plainChar, Bool.and_eq_true, bne_iff_ne, ne_eq] at hc
  obtain ⟨⟨⟨hsemi, hspace⟩, htab⟩, hquote⟩ := hc
  rw [lexLine]
  · simp [hsemi, hspace, htab]
  · intro c' rest' h
    exact absurd h hquote

theorem lexLine_append_plain {t : List Char} (ht : t.all plainChar = true) (cur rest : List Char) :
    lexLine cur (t ++ rest) = lexLine (cur ++ t) rest := by
  induction t generalizing cur with
  | nil => simp
  | cons c t ih =>
    rw [List.all_cons, Bool.and_eq_true] at ht
    obtain ⟨hc, hrest⟩ := ht
    rw [List.cons_append, lexLine_plain hc, ih hrest, List.append_assoc, List.singleton_append]

theorem flushToken_of_ne_nil {t : List Char} (ht : t ≠ []) : flushToken t = [t] := by
  simp [flushToken, ht]

/-- A space ends the token being read. -/
theorem lexLine_space (cur rest : List Char) : lexLine cur (' ' :: rest) = flushToken cur ++ lexLine [] rest := by
  rw [lexLine]
  · simp
  · simp

theorem hexDigit_plain : ∀ v : BitVec 4, plainChar (hexDigit v) = true := by decide

theorem byteText_plain (d : Byte) : (byteText d).all plainChar = true := by
  simp only [byteText, List.all_cons, List.all_nil, hexDigit_plain, Bool.and_true]
  decide

/-- A token followed by operands as text is read as that token and one token for each operand. -/
theorem lexLine_operandsText (m : List Byte) {cur : List Char} (hcur : cur ≠ []) :
    lexLine cur (operandsText m) = cur :: m.map byteText := by
  induction m generalizing cur with
  | nil => exact flushToken_of_ne_nil hcur
  | cons d m ih =>
    have htext : operandsText (d :: m) = ' ' :: (byteText d ++ operandsText m) := rfl
    rw [htext, lexLine_space, flushToken_of_ne_nil hcur, lexLine_append_plain (byteText_plain d), List.nil_append,
      ih (by simp [byteText])]
    rfl

theorem hexValue_hexDigit : ∀ v : BitVec 4, hexValue (hexDigit v) = some v := by decide

theorem parseByte_byteText (d : Byte) : parseByte (byteText d) = some d := by
  have hd : d.extractLsb' 4 4 ++ d.extractLsb' 0 4 = d :=
    (BitVec.extractLsb'_append_extractLsb'_eq_extractLsb' rfl).trans BitVec.extractLsb'_eq_self
  simp [parseByte, byteText, hexValue_hexDigit, hd]

theorem parseBytes_map_byteText (m : List Byte) : parseBytes (m.map byteText) = some m := by
  induction m with
  | nil => rfl
  | cons d m ih => simp [parseBytes, parseByte_byteText, ih]

/-- A mnemonic and operands as text assemble to the words of what the two stand for. -/
theorem assembleLine_eq {mnemonic : List Char} (hne : mnemonic ≠ []) (hplain : mnemonic.all plainChar = true)
    (m : List Byte) :
    assembleLine (mnemonic ++ operandsText m) = (expand mnemonic m).map (·.map encode) := by
  have hlex : lexLine [] (mnemonic ++ operandsText m) = mnemonic :: m.map byteText := by
    rw [lexLine_append_plain hplain, List.nil_append, lexLine_operandsText m hne]
  rw [assembleLine, hlex]
  simp only [parseBytes_map_byteText]

theorem opcodeMap_mnemonic_plain : ∀ r ∈ opcodeMap, r.mnemonic.toList.all plainChar = true := by
  decide

/-- No row has a pseudo-instruction's mnemonic (30_encoding.md R50, R56). -/
theorem opcodeMap_mnemonic_ne_pseudo : ∀ r ∈ opcodeMap,
    r.mnemonic.toList ≠ [] ∧ r.mnemonic.toList ≠ "SUM.MSG".toList ∧ r.mnemonic.toList ≠ "C16.MSG".toList ∧
      r.mnemonic.toList ≠ "C32.MSG".toList ∧ r.mnemonic.toList ≠ "ESC.MSG".toList ∧
      r.mnemonic.toList ≠ "UNE.MSG".toList := by
  decide

/-- A mnemonic is looked up to its own row, since no other row has it. -/
theorem find_mnemonic {r : OpcodeRow} (hr : r ∈ opcodeMap) :
    opcodeMap.find? (fun q => q.mnemonic.toList == r.mnemonic.toList) = some r := by
  have hfound : (opcodeMap.find? (fun q => q.mnemonic.toList == r.mnemonic.toList)).isSome = true :=
    List.find?_isSome.mpr ⟨r, hr, beq_self_eq_true _⟩
  obtain ⟨q, hq⟩ := Option.isSome_iff_exists.mp hfound
  have hlists : q.mnemonic.toList = r.mnemonic.toList := by simpa using List.find?_some hq
  have hname : q.mnemonic = r.mnemonic := String.toList_inj.mp (hlists)
  have hqr : q = r := List.inj_on_of_nodup_map (List.pairwise_map.mpr opcodeMap_mnemonics_pairwise)
    (List.mem_of_find?_eq_some hq) hr hname
  rw [hq, hqr]

/-- The commands of a format N row have no operand and are all one; those of a format B row have the row's byte. -/
theorem opcodeMap_operand : ∀ r ∈ opcodeMap,
    (r.mask = 0xFFFF#16 ∧ ∀ d, operandOf (r.build d) = none ∧ r.build 0x00#8 = r.build d) ∨
    (r.mask ≠ 0xFFFF#16 ∧ ∀ d, operandOf (r.build d) = some d) := by
  simp [opcodeMap, operandOf]

theorem commandOf_row {r : OpcodeRow} (hr : r ∈ opcodeMap) (d : Byte) :
    commandOf r.mnemonic.toList (operandOf (r.build d)).toList = some (r.build d) := by
  rcases opcodeMap_operand r hr with ⟨hmask, hrow⟩ | ⟨hmask, hrow⟩
  · obtain ⟨hoperand, hbuild⟩ := hrow d
    simp [commandOf, find_mnemonic hr, hoperand, hmask, hbuild]
  · simp [commandOf, find_mnemonic hr, hrow d, hmask]

/-- The line of a command assembles to its one word (30_encoding.md R55). -/
theorem assembleLine_lineOf (i : Instr) : assembleLine (lineOf i) = some [encode i] := by
  obtain ⟨r, hr, hname, -, hbuild⟩ := tableRow i
  obtain ⟨hne, hsum, hc16, hc32, hesc, hune⟩ := opcodeMap_mnemonic_ne_pseudo r hr
  have hcommand := commandOf_row hr (lowByte (encode i))
  rw [hbuild] at hcommand
  have hexpand : expand r.mnemonic.toList (operandOf i).toList = some [i] := by
    simp only [expand, hsum, hc16, hc32, hesc, hune, if_false, hcommand, Option.map_some]
  rw [lineOf, ← hname, assembleLine_eq hne (opcodeMap_mnemonic_plain r hr), hexpand]
  rfl

/-- Settles O58: `assembleLine_lineOf`, and `assembleLine_eq` at the five pseudo-mnemonics, which expand by
definition. -/
theorem assemblingALineGivesItsWords : Obligations.AssemblingALineGivesItsWords := by
  refine ⟨assembleLine_lineOf, fun m => ⟨?_, ?_, ?_, ?_, ?_⟩⟩
  all_goals
    rw [assembleLine_eq (by decide) (by decide)]
    rfl

end Sys2Proof.Machine

/-! # The SYS commands -/

namespace Sys2Proof.Machine

/-- A word of the reserved ranges, whichever range it is, executes as the illegal command event. -/
theorem executeWord_of_wordReserved {w : Word} (h : wordReserved w = true) (s : State) :
    executeWord w s = .next (s.answered (s.block.withIll true) .illegal []) := by
  obtain ⟨why, hdecode⟩ := (exists_reserved_iff w).mpr ((wordReserved_iff w).mp h)
  rw [executeWord_of_reserved hdecode, illegalCommand_eq_answered]

/-- Every SYS command but RST leaves the block. -/
theorem commandStep_sys {i : Instr} (hi : i.unit = .sys) (hrst : i ≠ .rst) (b : Block) : (commandStep b i).1 = b := by
  cases i with
  | nop | rdst => rfl
  | rst => exact absurd rfl hrst
  | _ => cases hi

/-- Settles O4: ILL by `commandStep_ill`, UERR by `commandStep_uerr_iff`; the unit that may change is the command's own,
and a SYS command other than RST changes none. -/
theorem rstResetsEverythingAndAloneClearsStickyBits : Obligations.RstResetsEverythingAndAloneClearsStickyBits := by
  refine ⟨decode_encode .rst, rfl, exec_eq_answered .rst, fun i s hrst => ?_⟩
  refine ⟨_, _, _, exec_eq_answered i s, fun hill => (commandStep_ill hrst _).trans hill,
    fun huerr => (commandStep_uerr_iff _ i).mpr (.inr ⟨huerr, hrst⟩), i.unit, fun v hv hne => ?_⟩
  by_cases hsys : i.unit = .sys
  · rw [commandStep_sys hsys hrst]
  · exact unitView_commandStep_of_ne _ hsys hv hne

/-- Settles O3: the neighbours of NOP's word, which have its fields and a non-zero low byte, are a reserved range
(30_encoding.md R52). -/
theorem nopLeavesTheStateAndAnswersOk : Obligations.NopLeavesTheStateAndAnswersOk := by
  refine ⟨decode_encode .nop, rfl, exec_eq_answered .nop, fun w s hlo hhi => ?_⟩
  have hrange : wordIn 0x0001 0x00FF w = true := by simp [wordIn, hlo, hhi]
  have hreserved : reservedClause .lowByte w = true := by simp [reservedClause, reservedLowByte, hrange]
  exact executeWord_of_wordReserved (wordReserved_of_clause hreserved) s

/-- Bits 7:6 of the byte CSR reads as are reserved and zero (10_state.md R18). -/
theorem Csr.toByte_topBits (c : Csr) : c.toByte.extractLsb' 6 2 = 0#2 := by
  obtain ⟨h7, h6, -⟩ := c.toByte_bits
  refine BitVec.eq_of_getLsbD_eq fun k hk => ?_
  interval_cases k
  · simpa using h6
  · simpa using h7

/-- Settles O5: RDST answers the CSR byte, its fields by `Csr.toByte_bits`, bits 7:6 together by `Csr.toByte_topBits`. -/
theorem rdstAnswersTheCsrByte : Obligations.RdstAnswersTheCsrByte := by
  refine ⟨decode_encode .rdst, rfl, fun s => ⟨_, exec_eq_answered .rdst s, Csr.toByte_topBits s.block.csr, ?_⟩⟩
  obtain ⟨-, -, hlow⟩ := s.block.csr.toByte_bits
  exact hlow

end Sys2Proof.Machine

/-! # Streams into an accumulator -/

namespace Sys2Proof.Machine

theorem restarts_iff (initWord : Word) (x : HostInput) :
    x.restarts initWord = true ↔ x = .command initWord ∨ x = .command (encode .rst) ∨ x = .hardwareReset := by
  simp [HostInput.restarts, encode, or_assoc]

/-- An illegal word leaves what `reg` reads, and so do all commands but three: RST and the INIT command `ini` start it
again at `zero`, and the data command `op`, of format B with the word `pattern`, folds its byte into it by `upd`. -/
structure IsAccumulator {α : Type} (reg : Block → α) (zero : α) (upd : α → Byte → α) (ini : Instr) (op : Byte → Instr)
    (pattern : Word) : Prop where
  reset   : reg Block.reset = zero
  init    : ∀ b, reg (commandStep b ini).1 = zero
  update  : ∀ b d, reg (commandStep b (op d)).1 = upd (reg b) d
  other   : ∀ b i, i ≠ .rst → i ≠ ini → (∀ d, i ≠ op d) → reg (commandStep b i).1 = reg b
  illegal : ∀ b, reg (b.withIll true) = reg b
  lowByte_pattern : lowByte pattern = 0x00#8
  encode_op : ∀ d, encode (op d) = wordB pattern d

namespace IsAccumulator
variable {α : Type} {reg : Block → α} {zero : α} {upd : α → Byte → α} {ini : Instr} {op : Byte → Instr} {pattern : Word}
  (h : IsAccumulator reg zero upd ini op pattern)
include h

/-- The words that carry a byte for the data command are its words. -/
theorem dataByte_iff (w : Word) (d : Byte) :
    (HostInput.command w).dataByte (pattern.extractLsb' 8 8) = some d ↔ decode w = .instr (op d) := by
  rw [dataByte_command_eq_some_iff h.lowByte_pattern, decode_eq_instr_iff, h.encode_op]

theorem inputBlock_of_restarts {x : HostInput} (hx : x.restarts (encode ini) = true) (b : Block) :
    reg (inputBlock b x) = zero := by
  obtain rfl | rfl | rfl := (restarts_iff _ x).mp hx
  · simpa [inputBlock] using h.init b
  · simpa [inputBlock, commandStep] using h.reset
  · exact h.reset

/-- Between restarts a data word folds its byte and every other word, legal or not, leaves what `reg` reads. -/
theorem inputBlock_of_not_restarts (b : Block) (x : HostInput) (hx : x.restarts (encode ini) = false) :
    reg (inputBlock b x) = (x.dataByte (pattern.extractLsb' 8 8)).elim (reg b) (upd (reg b)) := by
  rw [← Bool.not_eq_true, restarts_iff] at hx
  cases x with
  | hardwareReset => simp at hx
  | command w =>
    cases hd : (HostInput.command w).dataByte (pattern.extractLsb' 8 8) with
    | some d => simpa [inputBlock, wordStep_of_instr ((h.dataByte_iff w d).mp hd)] using h.update b d
    | none =>
      cases hw : decode w with
      | reserved why => simpa [inputBlock, wordStep_of_reserved hw] using h.illegal b
      | instr i =>
        have hword := encode_of_decode hw
        have hrst : i ≠ .rst := by rintro rfl; simp [hword] at hx
        have hini : i ≠ ini := by rintro rfl; simp [hword] at hx
        have hop (d : Byte) : i ≠ op d := by
          rintro rfl
          simp [(h.dataByte_iff w d).mpr hw] at hd
        simpa [inputBlock, wordStep_of_instr hw] using h.other b i hrst hini hop

/-- From a restart on, the accumulator is the fold of the data bytes of the stream. -/
theorem foldl_inputBlock {start : HostInput} {xs : List HostInput} (hstart : start.restarts (encode ini) = true)
    (hxs : ∀ x ∈ xs, x.restarts (encode ini) = false) (b : Block) :
    reg ((start :: xs).foldl inputBlock b) = (dataBytes (pattern.extractLsb' 8 8) xs).foldl upd zero := by
  rw [List.foldl_cons, foldl_inputBlock_eq_foldl_dataBytes h.inputBlock_of_not_restarts xs _ hxs,
    h.inputBlock_of_restarts hstart]

end IsAccumulator

/-- The response to the last word is the one it is given at the block the inputs before it leave. -/
theorem inputResponses_concat (b : Block) (xs : List HostInput) (w : Word) :
    inputResponses b (xs ++ [.command w]) = inputResponses b xs ++ [(wordStep (xs.foldl inputBlock b) w).2] := by
  induction xs generalizing b with
  | nil => rfl
  | cons x xs ih => simp [inputResponses_cons _ x (_ ++ _), inputResponses_cons _ x xs, ih]

/-- A run that ends in a command which leaves the block ends at the block the inputs before it leave, and that
command's response there is the last. -/
theorem runInputs_concat_read {rd : Instr} (hrd : ∀ b, (commandStep b rd).1 = b) (xs : List HostInput) (s : State) :
    ∃ t, runInputs (xs ++ [.command (encode rd)]) s = .next t ∧ t.inputs = s.inputs ∧
      t.block = xs.foldl inputBlock s.block ∧
      t.responses.getLast? = some (commandStep (xs.foldl inputBlock s.block) rd).2 := by
  refine ⟨_, runInputs_eq _ s, rfl, ?_, ?_⟩
  · simp [inputBlock, hrd]
  · simp [inputResponses_concat]

end Sys2Proof.Machine

/-! # The SUM unit -/

namespace Sys2Proof.Machine

/-- Settles O7: `exec_eq_answered` gives the whole next state. -/
theorem sumInitWritesZero : Obligations.SumInitWritesZero :=
  ⟨decode_encode .sumInit, rfl, exec_eq_answered .sumInit⟩

/-- Settles O8: the addition of bytes is the addition of integers with the carry lost. -/
theorem sumUpdAddsModulo256 : Obligations.SumUpdAddsModulo256 := by
  intro d
  have hword : encode (.sumUpd d) = 0x1100#16 + d.setWidth 16 := wordB_eq_add _ d rfl
  exact ⟨hword ▸ decode_encode (.sumUpd d), hword,
    fun s => ⟨_, exec_eq_answered (.sumUpd d) s, BitVec.toNat_add s.block.sum d⟩⟩

/-- Settles O9: `exec_eq_answered` gives the whole next state. -/
theorem sumRdAnswersTheSum : Obligations.SumRdAnswersTheSum :=
  ⟨decode_encode .sumRd, rfl, exec_eq_answered .sumRd⟩

theorem sum_isAccumulator : IsAccumulator Block.sum Params.sumInit sum8Step .sumInit .sumUpd 0x1100#16 where
  reset := rfl
  init _ := rfl
  update _ _ := rfl
  other _ i hrst hinit hupd := by
    cases i with
    | rst => exact absurd rfl hrst
    | sumInit => exact absurd rfl hinit
    | sumUpd d => exact absurd rfl (hupd d)
    | _ => rfl
  illegal _ := rfl
  lowByte_pattern := rfl
  encode_op _ := rfl

/-- Settles O49: SUM is an accumulator, so the stream folds into it as `sum8` does, and SUM.RD answers what it finds. -/
theorem sumStreamsSum8 : Obligations.SumStreamsSum8 := by
  intro start xs s hstart hxs
  have hsum : ((start :: xs).foldl inputBlock s.block).sum = sum8 (dataBytes 0x11#8 xs) :=
    sum_isAccumulator.foldl_inputBlock hstart hxs s.block
  obtain ⟨t, hrun, hinputs, hblock, hlast⟩ := runInputs_concat_read (rd := .sumRd) (fun _ => rfl) (start :: xs) s
  refine ⟨t, hrun, hinputs, hblock ▸ hsum, ?_⟩
  rw [hlast, ← hsum]
  rfl

/-- `sum8` is the sum of its bytes in the ring of bytes; the laws of that ring are its laws. -/
theorem sum8_eq_sum (m : List Byte) : sum8 m = m.sum :=
  List.sum_eq_foldl.symm

theorem sum8_append (a b : List Byte) : sum8 (a ++ b) = sum8 a + sum8 b := by
  simp only [sum8_eq_sum, List.sum_append]

theorem sum8_cons (x : Byte) (m : List Byte) : sum8 (x :: m) = x + sum8 m := by
  simp only [sum8_eq_sum, List.sum_cons]

/-- Settles O47, by induction on the message: one byte more is one addition modulo 256 more. -/
theorem sum8IsTheSumModulo256 : Obligations.Sum8IsTheSumModulo256 := by
  intro m
  induction m with
  | nil => rfl
  | cons x m ih => rw [sum8_cons, BitVec.toNat_add, ih, List.map_cons, List.sum_cons, Nat.add_mod_mod]

theorem sum8_perm {a b : List Byte} (h : a.Perm b) : sum8 a = sum8 b := by
  rw [sum8_eq_sum, sum8_eq_sum, h.sum_eq]

theorem toNat_sum8_replicate (n : Nat) (b : Byte) : (sum8 (List.replicate n b)).toNat = n * b.toNat % 256 := by
  rw [sum8IsTheSumModulo256, List.map_replicate, List.sum_replicate, smul_eq_mul]

theorem sum8_replicate_zero (n : Nat) : sum8 (List.replicate n 0x00#8) = 0x00#8 :=
  BitVec.eq_of_toNat_eq ((toNat_sum8_replicate n _).trans (by simp))

theorem sum8_replicate_256 (b : Byte) : sum8 (List.replicate 256 b) = 0x00#8 :=
  BitVec.eq_of_toNat_eq ((toNat_sum8_replicate 256 b).trans (Nat.mul_mod_right 256 _))

/-- 128 copies leave bit 0 of the byte, moved to bit 7. -/
theorem sum8_replicate_128 (b : Byte) :
    sum8 (List.replicate 128 b) = if b.getLsbD 0 then 0x80#8 else 0x00#8 := by
  have hbit : b.getLsbD 0 = true ↔ b.toNat % 2 = 1 := by simp [BitVec.getLsbD]
  apply BitVec.eq_of_toNat_eq
  rw [toNat_sum8_replicate]
  split
  case isTrue hodd =>
    have hodd' := hbit.mp hodd
    rw [BitVec.toNat_ofNat]
    omega
  case isFalse heven =>
    have heven' := mt hbit.mpr heven
    rw [BitVec.toNat_ofNat]
    omega

/-- The other bytes add the same to both, whatever stands in one place. -/
theorem sum8_append_cons (a b : List Byte) (x : Byte) : sum8 (a ++ x :: b) = x + sum8 (a ++ b) := by
  rw [sum8_perm List.perm_middle, sum8_cons]

/-- Settles O48, clause by clause; the two changes that cancel are an exchange. -/
theorem sum8LawsHold : Obligations.Sum8LawsHold := by
  refine ⟨fun a b => ?_, fun a b => sum8_perm, fun a b k => ?_, fun a b x delta => ?_, fun a b x y hne h => ?_,
    ⟨0x01#8, 0x02#8, 0x02#8, 0x01#8, by decide⟩, sum8_replicate_256,
    fun b => ⟨toNat_sum8_replicate 128 b, sum8_replicate_128 b⟩⟩
  · rw [sum8_append, BitVec.toNat_add]
  · rw [sum8_append, sum8_append, sum8_replicate_zero, BitVec.add_zero, sum8_append]
  · rw [sum8_append_cons, sum8_append_cons, add_right_comm]
  · rw [sum8_append_cons, sum8_append_cons] at h
    exact hne (add_right_cancel h)

end Sys2Proof.Machine

/-! # A CRC of any width, bit-serial and most significant bit first -/

namespace Sys2Proof.Machine

/-- One shift left, the polynomial (its top term implied) added when a bit falls out. C16's round is this one
(`crc16Step_eq`), and so is C32's seen through the reversal of its register (`reverse_crc32Round`). -/
def crcRound {n : Nat} (p c : BitVec n) : BitVec n := if c.msb then (c <<< 1) ^^^ p else c <<< 1

/-- A byte as the eight highest bits of a register. -/
def topByte (n : Nat) (d : Byte) : BitVec n := d.setWidth n <<< (n - 8)

/-- The eight highest bits of a register. -/
def highByte {n : Nat} (c : BitVec n) : Byte := c.extractLsb' (n - 8) 8

/-- One byte into the register: it enters the eight highest bits, then eight rounds (`crc16Step_eq`,
`reverse_crc32Step`). -/
def crcStep {n : Nat} (p c : BitVec n) (d : Byte) : BitVec n := (crcRound p)^[8] (c ^^^ topByte n d)

/-! ## Linearity -/

theorem topByte_xor (n : Nat) (x y : Byte) : topByte n (x ^^^ y) = topByte n x ^^^ topByte n y := by
  simp only [topByte, BitVec.setWidth_xor, BitVec.shiftLeft_xor_distrib]

section Linear
variable {n : Nat} (p : BitVec n)

theorem crcRound_eq_xor (c : BitVec n) : crcRound p c = (c <<< 1) ^^^ if c.msb then p else 0#n := by
  cases hc : c.msb <;> simp [crcRound, hc]

theorem crcRound_xor (a b : BitVec n) : crcRound p (a ^^^ b) = crcRound p a ^^^ crcRound p b := by
  have hbit : ∀ x y : Bool,
      (if (x ^^ y) then p else 0#n) = (if x then p else 0#n) ^^^ (if y then p else 0#n) := by
    rintro (_ | _) (_ | _) <;> simp
  simp only [crcRound_eq_xor, BitVec.msb_xor, hbit, BitVec.shiftLeft_xor_distrib]
  ac_rfl

theorem crcStep_xor (a b : BitVec n) (x y : Byte) :
    crcStep p (a ^^^ b) (x ^^^ y) = crcStep p a x ^^^ crcStep p b y := by
  have hsum : (a ^^^ b) ^^^ topByte n (x ^^^ y) = (a ^^^ topByte n x) ^^^ (b ^^^ topByte n y) := by
    rw [topByte_xor]
    ac_rfl
  rw [crcStep, hsum]
  exact Function.Semiconj₂.iterate (crcRound_xor p) 8 _ _

theorem crcStep_zero : crcStep p 0#n 0x00#8 = 0#n := by
  simpa using crcStep_xor p 0#n 0#n 0x00#8 0x00#8

theorem foldl_crcStep_zipWith_xor {a b : List Byte} (hlen : a.length = b.length) (c c' : BitVec n) :
    (List.zipWith (· ^^^ ·) a b).foldl (crcStep p) (c ^^^ c') = a.foldl (crcStep p) c ^^^ b.foldl (crcStep p) c' := by
  induction a generalizing b c c' with
  | nil =>
    obtain rfl := List.length_eq_zero_iff.mp hlen.symm
    rfl
  | cons x a ih =>
    cases b with
    | nil => cases hlen
    | cons y b =>
      simp only [List.zipWith_cons_cons, List.foldl_cons, crcStep_xor]
      exact ih (Nat.succ.inj hlen) _ _

theorem foldl_crcStep_replicate_zero (k : Nat) : (List.replicate k 0x00#8).foldl (crcStep p) 0#n = 0#n := by
  induction k with
  | zero => rfl
  | succ k ih => rw [List.replicate_succ, List.foldl_cons, crcStep_zero, ih]

end Linear

/-! ## A register with its own high byte -/

section HighByte
variable {n : Nat} (p : BitVec n)

/-- While no bit falls out, the rounds only shift. -/
theorem iterate_crcRound_of_clear {k : Nat} {c : BitVec n} (hclear : ∀ i < k, c.getMsbD i = false) :
    (crcRound p)^[k] c = c <<< k := by
  induction k generalizing c with
  | zero => simp
  | succ k ih =>
    have hround : crcRound p c = c <<< 1 := if_neg (by simpa [BitVec.msb] using hclear 0 k.succ_pos)
    have hnext : ∀ i < k, (c <<< 1).getMsbD i = false := fun i hi => by
      rw [BitVec.getMsbD_shiftLeft, hclear (i + 1) (Nat.succ_lt_succ hi)]
    rw [Function.iterate_succ_apply, hround, ih hnext, ← BitVec.shiftLeft_add, Nat.add_comm]

theorem getMsbD_topByte {i : Nat} (hn : 8 ≤ n) (d : Byte) : (topByte n d).getMsbD i = d.getMsbD i := by
  rw [topByte, BitVec.getMsbD_shiftLeft, BitVec.getMsbD_setWidth]
  have hle : n - 8 ≤ i + (n - 8) := by omega
  have hidx : i + (n - 8) + 8 - n = i := by omega
  simp [hidx]

theorem getMsbD_highByte {i : Nat} (hn : 8 ≤ n) (hi : i < 8) (c : BitVec n) :
    (highByte c).getMsbD i = c.getMsbD i := by
  have hle : n - 8 + 8 - i ≤ n := by omega
  have hidx : n - (n - 8 + 8 - i) = i := by omega
  rw [highByte, BitVec.getMsbD_extractLsb', hidx]
  simp [hi, hle]

theorem getLsbD_topByte (hn : 8 ≤ n) (d : Byte) (i : Nat) :
    (topByte n d).getLsbD i = (decide (n - 8 ≤ i) && d.getLsbD (i - (n - 8))) := by
  rw [topByte, BitVec.getLsbD_shiftLeft, BitVec.getLsbD_setWidth]
  by_cases hi : i < n
  · have hidx : i - (n - 8) < n := by omega
    simp only [hi, hidx, decide_true, Bool.true_and, ← decide_not, Nat.not_lt]
  · rw [BitVec.getLsbD_of_ge d _ (by omega)]
    simp

theorem highByte_topByte (hn : 8 ≤ n) (d : Byte) : highByte (topByte n d) = d :=
  BitVec.eq_of_getMsbD_eq fun i hi => by rw [getMsbD_highByte hn hi, getMsbD_topByte hn]

theorem topByte_shiftLeft (hn : 8 ≤ n) (d : Byte) : topByte n d <<< 8 = 0#n := by
  rw [topByte, ← BitVec.shiftLeft_add, Nat.sub_add_cancel hn]
  exact BitVec.shiftLeft_eq_zero le_rfl

/-- A register that is given its own high byte loses it and shifts the rest up: the fact behind both the table-driven
form and the residue. -/
theorem crcStep_highByte (hn : 8 ≤ n) (c : BitVec n) : crcStep p c (highByte c) = c <<< 8 := by
  have hclear : ∀ i < 8, (c ^^^ topByte n (highByte c)).getMsbD i = false := fun i hi => by
    rw [BitVec.getMsbD_xor, getMsbD_topByte hn, getMsbD_highByte hn hi, Bool.xor_self]
  rw [crcStep, iterate_crcRound_of_clear p hclear, BitVec.shiftLeft_xor_distrib, topByte_shiftLeft hn, BitVec.xor_zero]

/-- The table-driven form: by linearity, the high byte and the table's entry apart. -/
theorem crcStep_eq_table (hn : 8 ≤ n) (c : BitVec n) (d : Byte) :
    crcStep p c d = c <<< 8 ^^^ crcStep p 0#n (highByte c ^^^ d) :=
  calc crcStep p c d
    _ = crcStep p (c ^^^ 0#n) (highByte c ^^^ (highByte c ^^^ d)) := by
      rw [BitVec.xor_zero, ← BitVec.xor_assoc, BitVec.xor_self, BitVec.zero_xor]
    _ = c <<< 8 ^^^ crcStep p 0#n (highByte c ^^^ d) := by rw [crcStep_xor, crcStep_highByte p hn]

end HighByte

/-! ## Injectivity -/

/-- Where one step tells both its arguments apart, a fold tells apart the element at any one place. -/
theorem foldl_append_cons_injective {α β : Type} {f : α → β → α} (hleft : ∀ y, Function.Injective (f · y))
    (hright : ∀ c, Function.Injective (f c)) (a b : List β) (c : α) :
    Function.Injective fun x => (a ++ x :: b).foldl f c := by
  have hrest : Function.Injective fun c => b.foldl f c := by
    induction b with
    | nil => exact Function.injective_id
    | cons y b ih => exact ih.comp (hleft y)
  intro x y hxy
  simp only [List.foldl_append, List.foldl_cons] at hxy
  exact hright _ (hrest hxy)

section Injective
variable {n : Nat} {p : BitVec n} (hp : p.getLsbD 0 = true)
include hp

/-- The polynomial has its constant term, so the bit that falls out is found again at the other end. -/
theorem getLsbD_zero_crcRound (c : BitVec n) : (crcRound p c).getLsbD 0 = c.msb := by
  cases hc : c.msb <;> simp [crcRound, hc, hp]

theorem crcRound_injective : Function.Injective (crcRound p) := by
  intro a b hab
  have hmsb : a.msb = b.msb := by rw [← getLsbD_zero_crcRound hp, ← getLsbD_zero_crcRound hp, hab]
  have hshift : a <<< 1 = b <<< 1 := by
    rw [crcRound_eq_xor, crcRound_eq_xor, hmsb] at hab
    exact (BitVec.xor_left_inj _).mp hab
  refine BitVec.eq_of_getMsbD_eq fun i _ => ?_
  cases i with
  | zero => exact hmsb
  | succ i => rw [← BitVec.getMsbD_shiftLeft, ← BitVec.getMsbD_shiftLeft, hshift]

theorem crcStep_left_injective (d : Byte) : Function.Injective (crcStep p · d) :=
  ((crcRound_injective hp).iterate 8).comp fun _ _ => (BitVec.xor_left_inj _).mp

theorem crcStep_right_injective (hn : 8 ≤ n) (c : BitVec n) : Function.Injective (crcStep p c) := by
  have htop : Function.Injective (topByte n) := Function.LeftInverse.injective (highByte_topByte hn)
  exact ((crcRound_injective hp).iterate 8).comp fun _ _ h => htop ((BitVec.xor_right_inj _).mp h)

theorem foldl_crcStep_injective_at (hn : 8 ≤ n) (a b : List Byte) (c : BitVec n) :
    Function.Injective fun x => (a ++ x :: b).foldl (crcStep p) c :=
  foldl_append_cons_injective (crcStep_left_injective hp) (crcStep_right_injective hp hn) a b c

end Injective

/-! ## C16 and C32 as such CRCs -/

theorem crc16Step_eq : crc16Step = crcStep Params.c16Poly := rfl

theorem crc16_eq_foldl (m : List Byte) : crc16 m = m.foldl (crcStep Params.c16Poly) 0#16 :=
  BitVec.xor_zero

theorem reverse_xor {n : Nat} (a b : BitVec n) : (a ^^^ b).reverse = a.reverse ^^^ b.reverse :=
  BitVec.eq_of_getLsbD_eq fun i _ => by
    simp only [BitVec.getLsbD_reverse, BitVec.getLsbD_xor, BitVec.getMsbD_xor]

theorem reverse_ushiftRight {n : Nat} (c : BitVec n) (k : Nat) : (c >>> k).reverse = c.reverse <<< k :=
  BitVec.eq_of_getMsbD_eq fun i _ => by
    simp only [BitVec.getMsbD_reverse, BitVec.getLsbD_ushiftRight, BitVec.getMsbD_shiftLeft, Nat.add_comm]

theorem reverse_setWidth (n : Nat) (hn : 8 ≤ n) (d : Byte) : (d.setWidth n).reverse = topByte n d.reverse :=
  BitVec.eq_of_getMsbD_eq fun i hi => by
    rw [getMsbD_topByte hn, BitVec.getMsbD_reverse, BitVec.getMsbD_reverse, BitVec.getLsbD_setWidth]
    simp [hi]

theorem reverse_injective (n : Nat) : Function.Injective (BitVec.reverse (w := n)) :=
  Function.LeftInverse.injective fun _ => BitVec.reverse_reverse_eq

theorem reverse_crc32Round (c : Word32) :
    (crc32Round c).reverse = crcRound Params.c32PolyReflected.reverse c.reverse := by
  rw [crc32Round, apply_ite BitVec.reverse, reverse_xor, reverse_ushiftRight, crcRound, BitVec.msb_reverse]

theorem reverse_crc32Step (c : Word32) (d : Byte) :
    (crc32Step c d).reverse = crcStep Params.c32PolyReflected.reverse c.reverse d.reverse := by
  rw [crc32Step, crcStep, ← reverse_setWidth 32 (by decide), ← reverse_xor]
  exact Function.Semiconj.iterate_right reverse_crc32Round 8 _

theorem reverse_c32PolyReflected : Params.c32PolyReflected.reverse = 0x04C11DB7#32 := by
  have hbits : ∀ i < 32, Params.c32PolyReflected.getMsbD i = (0x04C11DB7#32).getLsbD i := by decide
  exact BitVec.eq_of_getLsbD_eq fun i hi => BitVec.getLsbD_reverse.trans (hbits i hi)

theorem reverse_c32Init : Params.c32Init.reverse = BitVec.allOnes 32 :=
  BitVec.eq_of_getLsbD_eq fun i hi => by
    have hones : Params.c32Init = BitVec.allOnes 32 := rfl
    rw [hones, BitVec.getLsbD_reverse, BitVec.getMsbD_allOnes, BitVec.getLsbD_allOnes]

theorem reverse_crc32Raw (m : List Byte) :
    (crc32Raw m).reverse =
      (m.map BitVec.reverse).foldl (crcStep Params.c32PolyReflected.reverse) (BitVec.allOnes 32) := by
  rw [List.foldl_map, crc32Raw, ← reverse_c32Init]
  exact (List.foldl_hom BitVec.reverse fun c d => (reverse_crc32Step c d).symm).symm

end Sys2Proof.Machine

/-! # The C16 unit, and C32 where one argument serves both -/

namespace Sys2Proof.Machine

/-- Settles O10: `exec_eq_answered` gives the whole next state. -/
theorem c16InitWritesZero : Obligations.C16InitWritesZero :=
  ⟨decode_encode .c16Init, rfl, exec_eq_answered .c16Init⟩

/-- Settles O11: `exec_eq_answered` gives the whole next state; the listed values are computed. -/
theorem c16UpdTakesOneCrc16Step : Obligations.C16UpdTakesOneCrc16Step := by
  refine ⟨fun d => ?_, by decide, by decide, by decide, by decide, by decide⟩
  have hword : encode (.c16Upd d) = 0x2100#16 + d.setWidth 16 := wordB_eq_add _ d rfl
  exact ⟨hword ▸ decode_encode (.c16Upd d), hword, exec_eq_answered (.c16Upd d)⟩

/-- C16.RD answers the register itself: C16_XOROUT is zero (42_crc16.md R76, R79). -/
theorem commandStep_c16Rd (b : Block) : commandStep b .c16Rd = (b, ⟨.ok, bytesHighFirst b.c16⟩) := by
  have hxorout : b.c16 ^^^ Params.c16Xorout = b.c16 := BitVec.xor_zero
  rw [commandStep, hxorout]

/-- Settles O12, by `commandStep_c16Rd`. -/
theorem c16RdAnswersHighByteFirst : Obligations.C16RdAnswersHighByteFirst :=
  ⟨decode_encode .c16Rd, rfl, fun s => exec_of_commandStep (commandStep_c16Rd s.block)⟩

theorem c16_isAccumulator : IsAccumulator Block.c16 Params.c16Init crc16Step .c16Init .c16Upd 0x2100#16 where
  reset := rfl
  init _ := rfl
  update _ _ := rfl
  other _ i hrst hinit hupd := by
    cases i with
    | rst => exact absurd rfl hrst
    | c16Init => exact absurd rfl hinit
    | c16Upd d => exact absurd rfl (hupd d)
    | _ => rfl
  illegal _ := rfl
  lowByte_pattern := rfl
  encode_op _ := rfl

/-- Settles O50: C16 is an accumulator, so the stream folds into it as `crc16` does, and C16.RD answers what it
finds. -/
theorem c16StreamsCrc16 : Obligations.C16StreamsCrc16 := by
  intro start xs s hstart hxs
  have hc16 : ((start :: xs).foldl inputBlock s.block).c16 = crc16 (dataBytes 0x21#8 xs) :=
    (c16_isAccumulator.foldl_inputBlock hstart hxs s.block).trans (crc16_eq_foldl _).symm
  obtain ⟨t, hrun, hinputs, hblock, hlast⟩ := runInputs_concat_read (rd := .c16Rd) (fun _ => rfl) (start :: xs) s
  refine ⟨t, hrun, hinputs, hblock ▸ hc16, ?_⟩
  rw [hlast, commandStep_c16Rd, hc16]
  rfl

theorem crc16StepByTable_eq (c : Word) (d : Byte) : crc16StepByTable c d = crc16Step c d := by
  have hbyte : (c >>> 8).setWidth 8 = highByte c := BitVec.setWidth_ushiftRight_eq_extractLsb
  rw [crc16Step_eq, crcStep_eq_table _ (by decide), ← hbyte]
  rfl

/-- The byte that selects the table's entry, through the reversal. -/
theorem reverse_setWidth_eq_highByte {n : Nat} (hn : 8 ≤ n) (c : BitVec n) :
    (c.setWidth 8).reverse = highByte c.reverse :=
  BitVec.eq_of_getMsbD_eq fun i hi => by
    rw [getMsbD_highByte hn hi, BitVec.getMsbD_reverse, BitVec.getMsbD_reverse, BitVec.getLsbD_setWidth]
    simp [hi]

theorem crc32StepByTable_eq (c : Word32) (d : Byte) : crc32StepByTable c d = crc32Step c d := by
  have hbyte : ((c ^^^ zext32 d).setWidth 8).reverse = highByte c.reverse ^^^ d.reverse := by
    rw [BitVec.setWidth_xor, reverse_xor, reverse_setWidth_eq_highByte (by decide), zext32,
      BitVec.setWidth_setWidth_of_le _ (by decide), BitVec.setWidth_eq]
  have hzero : (0x00000000#32).reverse = 0#32 := BitVec.reverse_eq_zero_iff.mpr rfl
  apply reverse_injective
  rw [crc32StepByTable, reverse_xor, reverse_ushiftRight, crc32Table, reverse_crc32Step, hzero, hbyte,
    reverse_crc32Step, crcStep_eq_table _ (by decide) c.reverse]

/-- Settles O52: `crcStep_eq_table` at both widths. -/
theorem tableDrivenFormsAgree : Obligations.TableDrivenFormsAgree :=
  ⟨fun c d => (crc16StepByTable_eq c d).symm, fun c d => (crc32StepByTable_eq c d).symm⟩

theorem crc16_concat (m : List Byte) (d : Byte) : crc16 (m ++ [d]) = crc16Step (crc16 m) d := by
  rw [crc16_eq_foldl, List.foldl_concat, ← crc16_eq_foldl, crc16Step_eq]

theorem crc16_zipWith_xor {a b : List Byte} (hlen : a.length = b.length) :
    crc16 (List.zipWith (· ^^^ ·) a b) = crc16 a ^^^ crc16 b := by
  simpa only [crc16_eq_foldl, BitVec.xor_zero] using foldl_crcStep_zipWith_xor Params.c16Poly hlen 0#16 0#16

/-- The CRC's own two bytes, high byte first, shift it out of the register. -/
theorem crc16_append_crc16 (m : List Byte) :
    crc16 (m ++ [(crc16 m).extractLsb' 8 8, (crc16 m).extractLsb' 0 8]) = 0x0000#16 := by
  have hlow (c : Word) : c.extractLsb' 0 8 = highByte (c <<< 8) := by
    ext i hi
    have hshift : 8 + i < 16 := by omega
    simp [highByte, hshift, BitVec.getLsbD_eq_getElem (x := c) (i := i) (by omega)]
  have hout (c : Word) : c <<< 8 <<< 8 = 0#16 := by
    rw [← BitVec.shiftLeft_add, BitVec.shiftLeft_eq_zero (by decide)]
  rw [crc16_eq_foldl, List.foldl_append, ← crc16_eq_foldl, hlow]
  calc crcStep Params.c16Poly (crcStep Params.c16Poly (crc16 m) (highByte (crc16 m))) (highByte (crc16 m <<< 8))
    _ = crc16 m <<< 8 <<< 8 := by rw [crcStep_highByte _ (by decide), crcStep_highByte _ (by decide)]
    _ = 0x0000#16 := hout _

/-- Settles O53, clause by clause; a zero byte after 0x01 changes the CRC. -/
theorem crc16IsLinearAndHasResidueZero : Obligations.Crc16IsLinearAndHasResidueZero := by
  have hone : crc16 [0x01#8] = 0x1021#16 := by decide
  have hlater : crc16Step 0x1021#16 0x00#8 ≠ 0x1021#16 := by decide
  refine ⟨fun a b => crc16_zipWith_xor, fun k m => ?_, fun k => ?_, ⟨[0x01#8], ?_⟩, crc16_append_crc16⟩
  · rw [crc16_eq_foldl, List.foldl_append, foldl_crcStep_replicate_zero, ← crc16_eq_foldl]
  · rw [crc16_eq_foldl, foldl_crcStep_replicate_zero]
  · rwa [crc16_concat, hone]

theorem crc16_injective_at (a b : List Byte) : Function.Injective fun x => crc16 (a ++ x :: b) := by
  simpa only [crc16_eq_foldl] using foldl_crcStep_injective_at (p := Params.c16Poly) rfl (by decide) a b 0#16

theorem crc32Raw_injective_at (a b : List Byte) : Function.Injective fun x => crc32Raw (a ++ x :: b) := by
  have hpoly : Params.c32PolyReflected.reverse.getLsbD 0 = true := by
    rw [reverse_c32PolyReflected]
    rfl
  have hfold := foldl_crcStep_injective_at hpoly (by decide)
    (a.map BitVec.reverse) (b.map BitVec.reverse) (BitVec.allOnes 32)
  intro x y hxy
  have hrev := congrArg BitVec.reverse hxy
  simp only [reverse_crc32Raw, List.map_append, List.map_cons] at hrev
  exact reverse_injective 8 (hfold hrev)

/-- Settles O55: a step is injective in the register and in the byte, and the final xor is injective. -/
theorem crcsDetectEverySingleByteChange : Obligations.CrcsDetectEverySingleByteChange :=
  fun a b _ _ hne => ⟨fun h => hne (crc16_injective_at a b h),
    fun h => hne (crc32Raw_injective_at a b ((BitVec.xor_left_inj _).mp h))⟩

end Sys2Proof.Machine

/-! # Bit vectors as polynomials over GF(2), and the CRCs as remainders -/

namespace Sys2Proof.Machine

open Polynomial

section BitsPoly
variable {n : Nat}

@[simp] theorem coeff_bitsPoly (v : BitVec n) (i : Nat) : (bitsPoly v).coeff i = if v.getLsbD i then 1 else 0 := by
  have hterm (j : Nat) : (if v.getLsbD j then (X : (ZMod 2)[X]) ^ j else 0).coeff i =
      if i = j then (if v.getLsbD i then 1 else 0) else 0 := by
    by_cases hij : i = j
    · subst hij; split <;> simp
    · split <;> simp [coeff_X_pow, hij]
  rw [bitsPoly, finsetSum_coeff]
  simp only [hterm, Finset.sum_ite_eq, Finset.mem_range]
  by_cases hi : i < n
  · rw [if_pos hi]
  · rw [if_neg hi, BitVec.getLsbD_of_ge _ _ (not_lt.mp hi), if_neg Bool.false_ne_true]

theorem degree_bitsPoly_lt (v : BitVec n) : (bitsPoly v).degree < n := by
  refine (degree_lt_iff_coeff_zero _ _).mpr fun i hi => ?_
  rw [coeff_bitsPoly, BitVec.getLsbD_of_ge _ _ hi, if_neg Bool.false_ne_true]

theorem bitsPoly_xor (a b : BitVec n) : bitsPoly (a ^^^ b) = bitsPoly a + bitsPoly b := by
  ext i
  have hone : (1 : ZMod 2) + 1 = 0 := rfl
  cases ha : a.getLsbD i <;> cases hb : b.getLsbD i <;> simp [ha, hb, hone]

theorem bitsPoly_zero : bitsPoly 0#n = 0 := by
  ext i
  simp

/-- A shift left is a product with X, but for the bit that falls out. -/
theorem bitsPoly_mul_X (c : BitVec n) : bitsPoly c * X = bitsPoly (c <<< 1) + if c.msb then X ^ n else 0 := by
  cases n with
  | zero => simp [bitsPoly, BitVec.of_length_zero]
  | succ n =>
    have htop (i : Nat) : (if c.msb then (X : (ZMod 2)[X]) ^ (n + 1) else 0).coeff i =
        if i = n + 1 ∧ c.getLsbD n then 1 else 0 := by
      rw [BitVec.msb_eq_getLsbD_last, Nat.add_sub_cancel]
      cases c.getLsbD n <;> simp [coeff_X_pow]
    ext i
    rw [coeff_add, coeff_bitsPoly, htop]
    cases i with
    | zero => simp
    | succ i =>
      rw [coeff_mul_X, coeff_bitsPoly, BitVec.getLsbD_shiftLeft]
      rcases lt_trichotomy i n with hi | rfl | hi
      · simp [hi, hi.ne]
      · simp
      · simp [hi.not_gt, hi.ne', BitVec.getLsbD_of_ge c i hi]

theorem bitsPoly_topByte (hn : 8 ≤ n) (d : Byte) : bitsPoly (topByte n d) = bitsPoly d * X ^ (n - 8) := by
  ext i
  rw [coeff_mul_X_pow', coeff_bitsPoly, coeff_bitsPoly, getLsbD_topByte hn]
  by_cases hi : n - 8 ≤ i <;> simp [hi]

end BitsPoly

/-- The polynomial with the bits of `p`, its top term no longer implied. -/
noncomputable def crcGenerator {n : Nat} (p : BitVec n) : (ZMod 2)[X] := X ^ n + bitsPoly p

section Remainder
variable {n : Nat} (p : BitVec n)

/-- A round is a product with X modulo the generator. -/
theorem mk_bitsPoly_crcRound (c : BitVec n) :
    AdjoinRoot.mk (crcGenerator p) (bitsPoly (crcRound p c)) = AdjoinRoot.mk (crcGenerator p) (bitsPoly c * X) := by
  have htwo (q : (ZMod 2)[X]) : q + q = 0 := CharTwo.add_self_eq_zero q
  rw [bitsPoly_mul_X]
  cases hc : c.msb with
  | false => simp [crcRound, hc]
  | true =>
    have hgen : bitsPoly (c <<< 1) + X ^ n = bitsPoly (c <<< 1 ^^^ p) + crcGenerator p := by
      rw [bitsPoly_xor, crcGenerator]
      linear_combination -(htwo (bitsPoly p))
    simp [crcRound, hc, hgen]

theorem mk_bitsPoly_iterate_crcRound (k : Nat) (c : BitVec n) :
    AdjoinRoot.mk (crcGenerator p) (bitsPoly ((crcRound p)^[k] c)) =
      AdjoinRoot.mk (crcGenerator p) (bitsPoly c * X ^ k) := by
  induction k with
  | zero => simp
  | succ k ih =>
    rw [Function.iterate_succ_apply', mk_bitsPoly_crcRound, map_mul, ih, ← map_mul, mul_assoc, ← pow_succ]

theorem mk_bitsPoly_crcStep (hn : 8 ≤ n) (c : BitVec n) (d : Byte) :
    AdjoinRoot.mk (crcGenerator p) (bitsPoly (crcStep p c d)) =
      AdjoinRoot.mk (crcGenerator p) (bitsPoly c * X ^ 8 + bitsPoly d * X ^ n) := by
  have hpow : (X : (ZMod 2)[X]) ^ n = X ^ (n - 8) * X ^ 8 := by rw [← pow_add, Nat.sub_add_cancel hn]
  rw [crcStep, mk_bitsPoly_iterate_crcRound, bitsPoly_xor, bitsPoly_topByte hn, hpow, add_mul, mul_assoc]

theorem messagePoly_concat (m : List Byte) (d : Byte) :
    messagePoly (m ++ [d]) = messagePoly m * X ^ 8 + bitsPoly d := by
  simp [messagePoly]

theorem mk_bitsPoly_foldl_crcStep (hn : 8 ≤ n) (m : List Byte) (c : BitVec n) :
    AdjoinRoot.mk (crcGenerator p) (bitsPoly (m.foldl (crcStep p) c)) =
      AdjoinRoot.mk (crcGenerator p) (messagePoly m * X ^ n + bitsPoly c * X ^ (8 * m.length)) := by
  induction m using List.reverseRecOn with
  | nil => simp [messagePoly]
  | append_singleton m d ih =>
    have hexpand : (messagePoly m * X ^ n + bitsPoly c * X ^ (8 * m.length)) * X ^ 8 + bitsPoly d * X ^ n =
        messagePoly (m ++ [d]) * X ^ n + bitsPoly c * X ^ (8 * (m ++ [d]).length) := by
      rw [messagePoly_concat, List.length_append, List.length_singleton]
      ring
    rw [List.foldl_concat, mk_bitsPoly_crcStep p hn, map_add, map_mul, ih, ← map_mul, ← map_add, hexpand]

/-- The register after a message: the message times X^n, and the initial register times X^(8 * length), modulo the
generator. -/
theorem messagePoly_modByMonic_crcGenerator (hn : 8 ≤ n) (m : List Byte) (c : BitVec n) :
    (messagePoly m * X ^ n + bitsPoly c * X ^ (8 * m.length)) %ₘ crcGenerator p =
      bitsPoly (m.foldl (crcStep p) c) := by
  have hmonic : (crcGenerator p).Monic := monic_X_pow_add (degree_bitsPoly_lt p)
  have hdegree : (crcGenerator p).degree = n := by
    rw [crcGenerator, degree_add_eq_left_of_degree_lt] <;> simp [degree_bitsPoly_lt]
  have hdvd := AdjoinRoot.mk_eq_mk.mp (mk_bitsPoly_foldl_crcStep p hn m c).symm
  rw [modByMonic_eq_of_dvd_sub hmonic hdvd, (modByMonic_eq_self_iff hmonic).mpr]
  exact hdegree ▸ degree_bitsPoly_lt _

end Remainder

theorem crcGenerator_c16Poly : crcGenerator Params.c16Poly = c16Generator := by
  have hbits : bitsPoly Params.c16Poly = 1 + X ^ 5 + X ^ 12 := by
    simp [bitsPoly, Finset.sum_range_succ, Params.c16Poly]
  rw [crcGenerator, hbits, c16Generator]
  ring

theorem crcGenerator_c32Poly : crcGenerator Params.c32PolyReflected.reverse = c32Generator := by
  have hbits : bitsPoly (0x04C11DB7#32) = 1 + X + X ^ 2 + X ^ 4 + X ^ 5 + X ^ 7 + X ^ 8 + X ^ 10 + X ^ 11 + X ^ 12 +
      X ^ 16 + X ^ 22 + X ^ 23 + X ^ 26 := by
    simp [bitsPoly, Finset.sum_range_succ]
  rw [crcGenerator, reverse_c32PolyReflected, hbits, c32Generator]
  ring

/-- Settles O56: `messagePoly_modByMonic_crcGenerator` at both widths. -/
theorem crcsArePolynomialRemainders : Obligations.CrcsArePolynomialRemainders := by
  constructor
  · intro m
    have h := messagePoly_modByMonic_crcGenerator Params.c16Poly (by decide) m 0#16
    simpa [crcGenerator_c16Poly, bitsPoly_zero, ← crc16_eq_foldl] using h
  · intro m
    have h := messagePoly_modByMonic_crcGenerator Params.c32PolyReflected.reverse (by decide) (m.map BitVec.reverse)
      (BitVec.allOnes 32)
    rwa [crcGenerator_c32Poly, ← reverse_crc32Raw, List.length_map] at h

end Sys2Proof.Machine

/-! # The C32 unit -/

namespace Sys2Proof.Machine

/-- Settles O13: `exec_eq_answered` gives the whole next state. -/
theorem c32InitWritesAllOnes : Obligations.C32InitWritesAllOnes :=
  ⟨decode_encode .c32Init, rfl, exec_eq_answered .c32Init⟩

/-- Settles O15: `exec_eq_answered` gives the whole next state. -/
theorem c32RdAnswersTheInverseLowByteFirst : Obligations.C32RdAnswersTheInverseLowByteFirst :=
  ⟨decode_encode .c32Rd, rfl, fun s => ⟨_, rfl, exec_eq_answered .c32Rd s⟩⟩

theorem c32_isAccumulator : IsAccumulator Block.c32 Params.c32Init crc32Step .c32Init .c32Upd 0x3100#16 where
  reset := rfl
  init _ := rfl
  update _ _ := rfl
  other _ i hrst hinit hupd := by
    cases i with
    | rst => exact absurd rfl hrst
    | c32Init => exact absurd rfl hinit
    | c32Upd d => exact absurd rfl (hupd d)
    | _ => rfl
  illegal _ := rfl
  lowByte_pattern := rfl
  encode_op _ := rfl

/-- Settles O51: C32 is an accumulator, so the stream folds into it as `crc32_raw` does, and C32.RD answers the inverse
of what it finds. -/
theorem c32StreamsCrc32 : Obligations.C32StreamsCrc32 := by
  intro start xs s hstart hxs
  have hc32 : ((start :: xs).foldl inputBlock s.block).c32 = crc32Raw (dataBytes 0x31#8 xs) :=
    c32_isAccumulator.foldl_inputBlock hstart hxs s.block
  obtain ⟨t, hrun, hinputs, hblock, hlast⟩ := runInputs_concat_read (rd := .c32Rd) (fun _ => rfl) (start :: xs) s
  refine ⟨t, hrun, hinputs, hblock ▸ hc32, ?_⟩
  rw [hlast, commandStep, hc32]
  rfl

/-! ## Affinity -/

theorem reverse_foldl_crc32Step (m : List Byte) (c : Word32) :
    (m.foldl crc32Step c).reverse =
      (m.map BitVec.reverse).foldl (crcStep Params.c32PolyReflected.reverse) c.reverse := by
  rw [List.foldl_map]
  exact (List.foldl_hom BitVec.reverse fun c d => (reverse_crc32Step c d).symm).symm

theorem foldl_crc32Step_zipWith_xor {a b : List Byte} (hlen : a.length = b.length) (c c' : Word32) :
    (List.zipWith (· ^^^ ·) a b).foldl crc32Step (c ^^^ c') = a.foldl crc32Step c ^^^ b.foldl crc32Step c' := by
  have hmap : (List.zipWith (· ^^^ ·) a b).map BitVec.reverse =
      List.zipWith (· ^^^ ·) (a.map BitVec.reverse) (b.map BitVec.reverse) := by
    simp only [List.map_zipWith, List.zipWith_map, reverse_xor]
  apply reverse_injective
  simp only [reverse_xor, reverse_foldl_crc32Step, hmap]
  exact foldl_crcStep_zipWith_xor _ (by simpa using hlen) _ _

theorem zipWith_xor_replicate_zero (m : List Byte) :
    List.zipWith (· ^^^ ·) m (List.replicate m.length 0x00#8) = m := by
  induction m with
  | nil => rfl
  | cons d m ih => rw [List.length_cons, List.replicate_succ, List.zipWith_cons_cons, BitVec.xor_zero, ih]

/-- What the start of the register adds runs through as many zero bytes. -/
theorem foldl_crc32Step_xor (m : List Byte) (c c' : Word32) :
    m.foldl crc32Step (c ^^^ c') =
      m.foldl crc32Step c ^^^ (List.replicate m.length 0x00#8).foldl crc32Step c' := by
  have h := foldl_crc32Step_zipWith_xor (a := m) (b := List.replicate m.length 0x00#8) (by simp) c c'
  rwa [zipWith_xor_replicate_zero] at h

/-- The all-ones start goes in three times, as it must to stand once in the sum. -/
theorem crc32_zipWith_xor {a b : List Byte} (hlen : a.length = b.length) :
    crc32 (List.zipWith (· ^^^ ·) a b) = crc32 a ^^^ crc32 b ^^^ crc32 (List.replicate a.length 0x00#8) := by
  have hstart : Params.c32Init = Params.c32Init ^^^ (Params.c32Init ^^^ Params.c32Init) := by
    rw [BitVec.xor_self, BitVec.xor_zero]
  have hraw : crc32Raw (List.zipWith (· ^^^ ·) a b) =
      crc32Raw a ^^^ (crc32Raw b ^^^ crc32Raw (List.replicate a.length 0x00#8)) := by
    rw [crc32Raw, hstart, foldl_crc32Step_zipWith_xor hlen, foldl_crc32Step_xor, ← hlen]
    rfl
  have hxorout (x y z w : Word32) : x ^^^ (y ^^^ z) ^^^ w = x ^^^ w ^^^ (y ^^^ w) ^^^ (z ^^^ w) := by
    have hcancel : w ^^^ w = 0#32 := BitVec.xor_self
    calc x ^^^ (y ^^^ z) ^^^ w
      _ = x ^^^ (y ^^^ z) ^^^ w ^^^ (w ^^^ w) := by rw [hcancel, BitVec.xor_zero]
      _ = x ^^^ w ^^^ (y ^^^ w) ^^^ (z ^^^ w) := by ac_rfl
  rw [crc32, hraw, hxorout]
  rfl

/-! ## A register with its own bytes -/

/-- The register whose bytes, low byte first, are those of the message. -/
def registerOfBytes (m : List Byte) : Word32 := BitVec.ofNat 32 (Nat.ofDigits 256 (m.map BitVec.toNat))

theorem ofDigits_bytes_lt (m : List Byte) : Nat.ofDigits 256 (m.map BitVec.toNat) < 256 ^ m.length := by
  have hdigits : ∀ x ∈ m.map BitVec.toNat, x < 256 :=
    List.forall_mem_map.mpr fun d _ => d.isLt
  simpa using Nat.ofDigits_lt_base_pow_length (by decide) hdigits

theorem toNat_registerOfBytes {m : List Byte} (hlen : m.length ≤ 4) :
    (registerOfBytes m).toNat = Nat.ofDigits 256 (m.map BitVec.toNat) := by
  have hpow : 256 ^ m.length ≤ 256 ^ 4 := Nat.pow_le_pow_right (by decide) hlen
  exact Nat.mod_eq_of_lt ((ofDigits_bytes_lt m).trans_le hpow)

theorem registerOfBytes_bytesLowFirst (v : Word32) : registerOfBytes (bytesLowFirst v) = v := by
  apply BitVec.eq_of_toNat_eq
  rw [toNat_registerOfBytes (m := bytesLowFirst v) (Nat.le_refl 4), toNat_eq_four_bytes v]
  simp only [bytesLowFirst, List.map_cons, List.map_nil, Nat.ofDigits_cons, Nat.ofDigits_nil]
  omega

theorem setWidth_registerOfBytes_cons (d : Byte) (m : List Byte) :
    (registerOfBytes (d :: m)).setWidth 8 = d := by
  apply BitVec.eq_of_toNat_eq
  have hd := d.isLt
  simp only [registerOfBytes, List.map_cons, Nat.ofDigits_cons, BitVec.toNat_setWidth, BitVec.toNat_ofNat]
  omega

theorem registerOfBytes_cons_ushiftRight {d : Byte} {m : List Byte} (hlen : (d :: m).length ≤ 4) :
    registerOfBytes (d :: m) >>> 8 = registerOfBytes m := by
  apply BitVec.eq_of_toNat_eq
  have hd := d.isLt
  rw [BitVec.toNat_ushiftRight, toNat_registerOfBytes hlen, toNat_registerOfBytes (Nat.le_of_succ_le hlen),
    List.map_cons, Nat.ofDigits_cons, Nat.shiftRight_eq_div_pow]
  omega

/-- A register that is given its own low byte loses it: the table's entry 0 is 0. -/
theorem crc32Step_lowByte (c : Word32) : crc32Step c (c.setWidth 8) = c >>> 8 := by
  have hindex : (c ^^^ zext32 (c.setWidth 8)).setWidth 8 = 0x00#8 := by
    rw [BitVec.setWidth_xor, zext32, BitVec.setWidth_setWidth_of_le _ (by decide), BitVec.setWidth_eq, BitVec.xor_self]
  have hentry : crc32Table 0x00#8 = 0#32 := by decide
  rw [← crc32StepByTable_eq, crc32StepByTable, hindex, hentry, BitVec.xor_zero]

/-- The fact behind both the residue and the register zero: its own bytes shift a register out. -/
theorem foldl_crc32Step_registerOfBytes {m : List Byte} (hlen : m.length ≤ 4) :
    m.foldl crc32Step (registerOfBytes m) = 0#32 := by
  induction m with
  | nil => rfl
  | cons d m ih =>
    have hstep : crc32Step (registerOfBytes (d :: m)) d = registerOfBytes m := by
      have h := crc32Step_lowByte (registerOfBytes (d :: m))
      rwa [setWidth_registerOfBytes_cons, registerOfBytes_cons_ushiftRight hlen] at h
    rw [List.foldl_cons, hstep, ih (Nat.le_of_succ_le hlen)]

theorem crc32Step_left_injective (d : Byte) : Function.Injective (crc32Step · d) := by
  have hpoly : Params.c32PolyReflected.reverse.getLsbD 0 = true := by
    rw [reverse_c32PolyReflected]
    rfl
  intro c c' h
  have hrev := congrArg BitVec.reverse h
  simp only [reverse_crc32Step] at hrev
  exact reverse_injective 32 (crcStep_left_injective hpoly d.reverse hrev)

theorem foldl_crc32Step_left_injective (m : List Byte) : Function.Injective fun c => m.foldl crc32Step c := by
  induction m with
  | nil => exact Function.injective_id
  | cons d m ih => exact ih.comp (crc32Step_left_injective d)

/-- Fewer than four bytes cannot shift the all-ones register out: only the register they make themselves goes to zero,
and its high byte is zero (43_crc32.md R89). -/
theorem crc32Raw_ne_zero {m : List Byte} (hlen : m.length < 4) : crc32Raw m ≠ 0x00000000#32 := by
  intro hzero
  have hstart : Params.c32Init = registerOfBytes m :=
    foldl_crc32Step_left_injective m (hzero.trans (foldl_crc32Step_registerOfBytes hlen.le).symm)
  have hlt : (registerOfBytes m).toNat < 256 ^ 3 := by
    rw [toNat_registerOfBytes hlen.le]
    exact (ofDigits_bytes_lt m).trans_le (Nat.pow_le_pow_right (by decide) (Nat.le_of_lt_succ hlen))
  rw [← hstart] at hlt
  exact absurd hlt (by decide)

/-- Settles O14: `exec_eq_answered` gives the whole next state; the listed values are computed, and the register zero is
`crc32Raw_ne_zero`. -/
theorem c32UpdTakesOneCrc32Step : Obligations.C32UpdTakesOneCrc32Step := by
  refine ⟨fun d => ?_, by decide, by decide, by decide, by decide, by decide, fun _ => crc32Raw_ne_zero, ?_⟩
  · have hword : encode (.c32Upd d) = 0x3100#16 + d.setWidth 16 := wordB_eq_add _ d rfl
    exact ⟨hword ▸ decode_encode (.c32Upd d), hword, exec_eq_answered (.c32Upd d)⟩
  · simp [List.range_succ, crc32Round, Params.c32PolyReflected]

/-- The residue: the register is its inverse and all ones, the four bytes of the inverse shift the inverse out, and the
all-ones part runs through four zero bytes whatever the message was. -/
theorem crc32Raw_append_crc32 (m : List Byte) : crc32Raw (m ++ bytesLowFirst (crc32 m)) = 0xDEBB20E3#32 := by
  have hraw : crc32Raw m = crc32 m ^^^ Params.c32Init := by
    have hcancel : Params.c32Xorout ^^^ Params.c32Init = 0#32 := BitVec.xor_self
    rw [crc32, BitVec.xor_assoc, hcancel, BitVec.xor_zero]
  have hown : (bytesLowFirst (crc32 m)).foldl crc32Step (crc32 m) = 0#32 := by
    have h := foldl_crc32Step_registerOfBytes (m := bytesLowFirst (crc32 m)) (Nat.le_refl 4)
    rwa [registerOfBytes_bytesLowFirst] at h
  have hzeros : (List.replicate 4 0x00#8).foldl crc32Step Params.c32Init = 0xDEBB20E3#32 := by
    simp [List.replicate_succ, crc32Step, crc32Round, zext32, Params.c32PolyReflected, Params.c32Init]
  calc crc32Raw (m ++ bytesLowFirst (crc32 m))
    _ = (bytesLowFirst (crc32 m)).foldl crc32Step (crc32 m ^^^ Params.c32Init) := by
      rw [← hraw]
      exact List.foldl_append
    _ = 0#32 ^^^ (List.replicate 4 0x00#8).foldl crc32Step Params.c32Init := by
      rw [foldl_crc32Step_xor, hown]
      rfl
    _ = 0xDEBB20E3#32 := by rw [hzeros, BitVec.zero_xor]

/-- The CRC-32 of "123456789", and after three zero bytes: leading zeros are visible (43_crc32.md R92 (b)). -/
theorem crc32_zeros_append_digits :
    crc32 [0x31#8, 0x32#8, 0x33#8, 0x34#8, 0x35#8, 0x36#8, 0x37#8, 0x38#8, 0x39#8] = 0xCBF43926#32 ∧
    crc32 [0x00#8, 0x00#8, 0x00#8, 0x31#8, 0x32#8, 0x33#8, 0x34#8, 0x35#8, 0x36#8, 0x37#8, 0x38#8, 0x39#8] =
      0x5628EBE7#32 := by
  constructor <;>
    simp [crc32, crc32Raw, crc32Step, crc32Round, zext32, Params.c32PolyReflected, Params.c32Init, Params.c32Xorout]

/-- Settles O54: `crc32_zipWith_xor`, the two listed values, and the residue `crc32Raw_append_crc32`. -/
theorem crc32IsAffineAndHasItsResidue : Obligations.Crc32IsAffineAndHasItsResidue := by
  obtain ⟨hdigits, hzeros⟩ := crc32_zeros_append_digits
  refine ⟨fun a b => crc32_zipWith_xor, hdigits, hzeros, fun m => ?_⟩
  have hraw := crc32Raw_append_crc32 m
  exact ⟨_, _, _, _, rfl, hraw, congrArg (· ^^^ Params.c32Xorout) hraw⟩

end Sys2Proof.Machine

/-! # The escape sets -/

namespace Sys2Proof.Machine

theorem mem_byteRange_iff {lo hi : Nat} (hhi : hi < 256) (b : Byte) :
    b ∈ byteRange lo hi ↔ lo ≤ b.toNat ∧ b.toNat ≤ hi := by
  simp only [byteRange, List.mem_map, List.mem_range'_1]
  constructor
  · rintro ⟨k, hk, rfl⟩
    rw [BitVec.toNat_ofNat, Nat.mod_eq_of_lt (by omega)]
    omega
  · exact fun hb => ⟨b.toNat, by omega, BitVec.eq_of_toNat_eq (by simp)⟩

theorem nodup_byteRange {lo hi : Nat} (hhi : hi < 256) : (byteRange lo hi).Nodup := by
  refine List.Nodup.map_on (fun x hx y hy hxy => ?_) List.nodup_range'
  rw [List.mem_range'_1] at hx hy
  have hmod := congrArg BitVec.toNat hxy
  rwa [BitVec.toNat_ofNat, BitVec.toNat_ofNat, Nat.mod_eq_of_lt (by omega), Nat.mod_eq_of_lt (by omega)] at hmod

theorem nodup_byteRange_append {lo hi lo' hi' : Nat} (hlt : hi < lo') (hhi : hi < 256) (hhi' : hi' < 256) :
    (byteRange lo hi ++ byteRange lo' hi').Nodup := by
  refine (nodup_byteRange hhi).append (nodup_byteRange hhi') fun b hb hb' => ?_
  rw [mem_byteRange_iff hhi] at hb
  rw [mem_byteRange_iff hhi'] at hb'
  omega

theorem mem_escSet_controlChars_iff (b : Byte) :
    b ∈ Params.escSet .controlChars ↔ b.toNat ≤ 0x1F ∨ (0x80 ≤ b.toNat ∧ b.toNat ≤ 0x9F) := by
  simp [Params.escSet, mem_byteRange_iff]

theorem mem_escSet_all8Bit_iff (b : Byte) :
    b ∈ Params.escSet .all8Bit ↔ b.toNat ≤ 0x1F ∨ 0x80 ≤ b.toNat := by
  have hb := b.isLt
  simp only [Params.escSet, List.mem_append, mem_byteRange_iff (show 0x1F < 256 by decide),
    mem_byteRange_iff (show 0xFF < 256 by decide)]
  omega

/-- Every byte of the lower set has bits 6 and 5 clear (44_escape_encoder.md R99). -/
theorem escSet_minimal_subset_controlChars : Params.escSet .minimal ⊆ Params.escSet .controlChars := by
  have hall : ∀ b ∈ Params.escSet .minimal, b.toNat ≤ 0x1F ∨ (0x80 ≤ b.toNat ∧ b.toNat ≤ 0x9F) := by decide
  exact fun b hb => (mem_escSet_controlChars_iff b).mpr (hall b hb)

theorem escSet_controlChars_subset_all8Bit : Params.escSet .controlChars ⊆ Params.escSet .all8Bit := by
  intro b hb
  rw [mem_escSet_controlChars_iff] at hb
  rw [mem_escSet_all8Bit_iff]
  omega

/-- The sets grow with the mode (44_escape_encoder.md R98), so what holds of the last one's bytes holds in every mode. -/
theorem escSet_subset_all8Bit (mode : EscMode) : Params.escSet mode ⊆ Params.escSet .all8Bit := by
  cases mode with
  | minimal => exact List.Subset.trans escSet_minimal_subset_controlChars escSet_controlChars_subset_all8Bit
  | controlChars => exact escSet_controlChars_subset_all8Bit
  | all8Bit => exact List.Subset.refl _

theorem escSet_controlChars_subset {mode : EscMode} (h : mode ≠ .minimal) :
    Params.escSet .controlChars ⊆ Params.escSet mode := by
  cases mode with
  | minimal => exact absurd rfl h
  | controlChars => exact List.Subset.refl _
  | all8Bit => exact escSet_controlChars_subset_all8Bit

theorem zdle_mem_escSet (mode : EscMode) : 0x18#8 ∈ Params.escSet mode := by
  cases mode <;> decide

theorem toNat_of_mem_escSet {b : Byte} {mode : EscMode} (h : b ∈ Params.escSet mode) :
    b.toNat ≤ 0x1F ∨ 0x80 ≤ b.toNat :=
  (mem_escSet_all8Bit_iff b).mp (escSet_subset_all8Bit mode h)

theorem not_mem_escSet {b : Byte} (mode : EscMode) (hlo : 0x20 ≤ b.toNat) (hhi : b.toNat ≤ 0x7F) :
    b ∉ Params.escSet mode := by
  intro hb
  have hrange := toNat_of_mem_escSet hb
  omega

/-- The predicate of the ControlChars row of 44_escape_encoder.md R99, by ranges. -/
theorem and_60_eq_zero_iff : ∀ b : Byte,
    (b &&& 0x60#8) = 0x00#8 ↔ b.toNat ≤ 0x1F ∨ (0x80 ≤ b.toNat ∧ b.toNat ≤ 0x9F) := by
  decide

theorem getLsbD_seven_iff (b : Byte) : b.getLsbD 7 = true ↔ 0x80 ≤ b.toNat := by
  have hmsb : b.getLsbD 7 = b.msb := rfl
  rw [hmsb, BitVec.msb_eq_true_iff_two_mul_ge]
  omega

theorem escNeeded_iff_mem (b : Byte) (mode : EscMode) : escNeeded b mode = true ↔ b ∈ Params.escSet mode :=
  List.contains_iff_mem

theorem mem_escSet_minimal_iff : ∀ b : Byte,
    b ∈ Params.escSet .minimal ↔ (b = 0x18#8 ∨ (b &&& 0x7F#8) ∈ [0x10#8, 0x11#8, 0x13#8]) := by
  decide

theorem nodup_escSet (mode : EscMode) : (Params.escSet mode).Nodup := by
  cases mode with
  | minimal => decide
  | controlChars => exact nodup_byteRange_append (by decide) (by decide) (by decide)
  | all8Bit => exact nodup_byteRange_append (by decide) (by decide) (by decide)

/-- Settles O19: each set by the ranges of its bytes, and the predicates by the same ranges. -/
theorem escapeSetsAreTheListedSets : Obligations.EscapeSetsAreTheListedSets := by
  refine ⟨escNeeded_iff_mem, mem_escSet_minimal_iff, fun b => ?_, fun b => ?_, nodup_escSet, rfl, rfl, rfl,
    escSet_minimal_subset_controlChars, escSet_controlChars_subset_all8Bit, zdle_mem_escSet,
    fun b mode => not_mem_escSet mode, fun mode => ?_, rfl, rfl, rfl⟩
  · rw [mem_escSet_controlChars_iff, and_60_eq_zero_iff]
  · rw [mem_escSet_all8Bit_iff, and_60_eq_zero_iff, getLsbD_seven_iff]
    omega
  · cases mode <;> simp

end Sys2Proof.Machine

/-! # The ESC unit -/

namespace Sys2Proof.Machine

theorem escape1_of_mem {b : Byte} {mode : EscMode} (h : b ∈ Params.escSet mode) :
    escape1 b mode = [0x18#8, b ^^^ 0x40#8] :=
  if_pos ((escNeeded_iff_mem b mode).mpr h)

theorem escape1_of_not_mem {b : Byte} {mode : EscMode} (h : b ∉ Params.escSet mode) : escape1 b mode = [b] :=
  if_neg (mt (escNeeded_iff_mem b mode).mp h)

theorem escape1_eq_ite (b : Byte) (mode : EscMode) :
    escape1 b mode = if b ∈ Params.escSet mode then [0x18#8, b ^^^ 0x40#8] else [b] := by
  split
  next h => exact escape1_of_mem h
  next h => exact escape1_of_not_mem h

/-- Settles O17: `exec_eq_answered` gives the whole next state, and the word after the three is reserved. -/
theorem modeCommandsWriteModeOnly : Obligations.ModeCommandsWriteModeOnly := by
  refine ⟨decode_encode .escMin, rfl, decode_encode .escCtl, rfl, decode_encode .escA8b, rfl, fun s =>
    ⟨exec_eq_answered .escMin s, exec_eq_answered .escCtl s, exec_eq_answered .escA8b s, ?_⟩⟩
  have hw : decode 0x4003#16 = .reserved .mode := by decide
  rw [executeWord_of_reserved hw, illegalCommand_eq_answered]

/-- Settles O18: the response of `commandStep` is `escape1`, which is a question of membership in the mode's set. -/
theorem escEncAnswersTheEscapedByte : Obligations.EscEncAnswersTheEscapedByte := by
  refine ⟨fun d => ?_, fun mode => ⟨escape1_of_mem (zdle_mem_escSet mode), ?_, ?_⟩, by decide, by decide, by decide,
    by decide, by decide, by decide, by decide⟩
  · have hword : encode (.escEnc d) = 0x4100#16 + d.setWidth 16 := wordB_eq_add _ d rfl
    refine ⟨hword ▸ decode_encode (.escEnc d), hword, fun s => ?_⟩
    rw [← escape1_eq_ite]
    exact exec_eq_answered (.escEnc d) s
  · exact escape1_of_not_mem (not_mem_escSet mode (by decide) (by decide))
  · exact escape1_of_not_mem (not_mem_escSet mode (by decide) (by decide))

/-- The escape transform inverts bit 6 (44_escape_encoder.md R101): it adds 64 where the bit is clear and takes 64 away
where it is set. -/
theorem toNat_xor_40 : ∀ b : Byte, (b ^^^ 0x40#8).toNat + 128 * (b.toNat / 64 % 2) = b.toNat + 64 := by
  decide

/-- Second bytes are canonical (44_escape_encoder.md R106 (c)). -/
theorem toNat_xor_40_of_mem_escSet {b : Byte} {mode : EscMode} (h : b ∈ Params.escSet mode) :
    (0x40 ≤ (b ^^^ 0x40#8).toNat ∧ (b ^^^ 0x40#8).toNat ≤ 0x5F) ∨ 0x80 ≤ (b ^^^ 0x40#8).toNat := by
  have hrange := toNat_of_mem_escSet h
  have hxor := toNat_xor_40 b
  omega

theorem xor_40_ne_zdle {b : Byte} {mode : EscMode} (h : b ∈ Params.escSet mode) : b ^^^ 0x40#8 ≠ 0x18#8 := by
  intro hc
  have hrange := toNat_xor_40_of_mem_escSet h
  rw [hc] at hrange
  exact absurd hrange (by decide)

theorem ne_zdle_of_not_mem {b : Byte} {mode : EscMode} (h : b ∉ Params.escSet mode) : b ≠ 0x18#8 := by
  rintro rfl
  exact h (zdle_mem_escSet mode)

theorem escape1_eq_singleton_iff (b : Byte) (mode : EscMode) : escape1 b mode = [b] ↔ b ∉ Params.escSet mode := by
  by_cases hb : b ∈ Params.escSet mode
  · simp [escape1_of_mem hb, hb]
  · simp [escape1_of_not_mem hb, hb]

theorem escape1_eq_pair_iff (b c : Byte) (mode : EscMode) :
    escape1 b mode = [0x18#8, c] ↔ b ∈ Params.escSet mode ∧ b ^^^ 0x40#8 = c := by
  by_cases hb : b ∈ Params.escSet mode
  · simp [escape1_of_mem hb, hb]
  · simp [escape1_of_not_mem hb, hb]

/-- An escaped byte holds one ZDLE, the introducer; a literal holds none. -/
theorem count_zdle_escape1 (b : Byte) (mode : EscMode) :
    (escape1 b mode).count 0x18#8 = if escNeeded b mode then 1 else 0 := by
  by_cases hb : b ∈ Params.escSet mode
  · simp [escape1_of_mem hb, (escNeeded_iff_mem b mode).mpr hb, xor_40_ne_zdle hb]
  · simp [escape1_of_not_mem hb, mt (escNeeded_iff_mem b mode).mp hb, ne_zdle_of_not_mem hb]

theorem escape_cons (b : Byte) (m : List Byte) (mode : EscMode) :
    escape (b :: m) mode = escape1 b mode ++ escape m mode :=
  List.flatMap_cons

theorem escape_append (m n : List Byte) (mode : EscMode) : escape (m ++ n) mode = escape m mode ++ escape n mode :=
  List.flatMap_append

theorem mem_escape_iff (x : Byte) (m : List Byte) (mode : EscMode) :
    x ∈ escape m mode ↔ ∃ b ∈ m, x ∈ escape1 b mode :=
  List.mem_flatMap

theorem length_escape_bounds (m : List Byte) (mode : EscMode) :
    m.length ≤ (escape m mode).length ∧ (escape m mode).length ≤ 2 * m.length := by
  induction m with
  | nil => simp [escape]
  | cons b m ih =>
    have hone := escape1_length_mem b mode
    simp only [List.mem_cons, List.not_mem_nil, or_false] at hone
    simp only [escape_cons, List.length_append, List.length_cons]
    omega

theorem count_zdle_escape (m : List Byte) (mode : EscMode) :
    (escape m mode).count 0x18#8 = m.countP (fun b => escNeeded b mode) := by
  induction m with
  | nil => rfl
  | cons b m ih => rw [escape_cons, List.count_append, count_zdle_escape1, ih, List.countP_cons, Nat.add_comm]

/-- The second bytes of ControlChars (44_escape_encoder.md R106 (d)). -/
theorem toNat_xor_40_of_mem_controlChars {b : Byte} (h : b ∈ Params.escSet .controlChars) :
    (0x40 ≤ (b ^^^ 0x40#8).toNat ∧ (b ^^^ 0x40#8).toNat ≤ 0x5F) ∨
    (0xC0 ≤ (b ^^^ 0x40#8).toNat ∧ (b ^^^ 0x40#8).toNat ≤ 0xDF) := by
  rw [mem_escSet_controlChars_iff] at h
  have hxor := toNat_xor_40 b
  omega

/-- Outside Minimal the bytes with bits 6 and 5 clear are all escaped. -/
theorem and_60_ne_zero_of_not_mem {b : Byte} {mode : EscMode} (hmode : mode ≠ .minimal)
    (h : b ∉ Params.escSet mode) : (b &&& 0x60#8) ≠ 0x00#8 := by
  rw [ne_eq, and_60_eq_zero_iff, ← mem_escSet_controlChars_iff]
  exact mt (fun hb => escSet_controlChars_subset hmode hb) h

/-- In ControlChars a byte on the wire is the introducer, a second byte or a literal, and the last two have bit 6 or 5
set. -/
theorem zdle_or_and_60_ne_zero_of_mem_escape1 {b x : Byte} (hx : x ∈ escape1 b .controlChars) :
    x = 0x18#8 ∨ (x &&& 0x60#8) ≠ 0x00#8 := by
  by_cases hb : b ∈ Params.escSet .controlChars
  · rw [escape1_of_mem hb, List.mem_pair] at hx
    refine hx.imp_right ?_
    rintro rfl
    have hrange := toNat_xor_40_of_mem_controlChars hb
    rw [ne_eq, and_60_eq_zero_iff]
    omega
  · rw [escape1_of_not_mem hb, List.mem_singleton] at hx
    exact Or.inr (hx ▸ and_60_ne_zero_of_not_mem (by decide) hb)

/-- In All8Bit every byte with bit 7 set is escaped; its second byte keeps bit 7. -/
theorem escape1_all8Bit_of_ge {b : Byte} (h : 0x80 ≤ b.toNat) :
    escape1 b .all8Bit = [0x18#8, b ^^^ 0x40#8] ∧ 0x80 ≤ (b ^^^ 0x40#8).toNat := by
  refine ⟨escape1_of_mem ((mem_escSet_all8Bit_iff b).mpr (Or.inr h)), ?_⟩
  have hxor := toNat_xor_40 b
  omega

/-- The bytes 0xA0 to 0xFF pass in the two lower modes. -/
theorem escape1_of_ge_A0 {b : Byte} {mode : EscMode} (hmode : Params.escSet mode ⊆ Params.escSet .controlChars)
    (h : 0xA0 ≤ b.toNat) : escape1 b mode = [b] := by
  refine escape1_of_not_mem fun hb => ?_
  have hrange := (mem_escSet_controlChars_iff b).mp (hmode hb)
  omega

/-- One byte's output is a literal or an introducer and a canonical second byte (44_escape_encoder.md R106 (b), (c)). -/
theorem escape1_literal_or_pair (b : Byte) (mode : EscMode) :
    (escape1 b mode = [b] ∧ b ≠ 0x18#8) ∨
    ∃ c : Byte, escape1 b mode = [0x18#8, c] ∧ c ≠ 0x18#8 ∧
      ((0x40 ≤ c.toNat ∧ c.toNat ≤ 0x5F) ∨ 0x80 ≤ c.toNat) := by
  by_cases hb : b ∈ Params.escSet mode
  · exact Or.inr ⟨_, escape1_of_mem hb, xor_40_ne_zdle hb, toNat_xor_40_of_mem_escSet hb⟩
  · exact Or.inl ⟨escape1_of_not_mem hb, ne_zdle_of_not_mem hb⟩

/-- Settles O20: the clauses on messages by induction over the message, those on one byte by membership in the mode's set
and the ranges of the set and of its second bytes. -/
theorem escapedOutputHasTheListedProperties : Obligations.EscapedOutputHasTheListedProperties := by
  refine ⟨fun m mode => ?_, escape1_literal_or_pair, fun b mode hmode hlit => ?_, fun b c hpair => ?_,
    fun m x hx => ?_, fun b hlo hhi => ?_, fun b hb => ⟨_, escape1_all8Bit_of_ge hb⟩, fun b hb => ?_, escape_append⟩
  · obtain ⟨hlo, hhi⟩ := length_escape_bounds m mode
    exact ⟨hlo, hhi, count_zdle_escape m mode⟩
  · exact and_60_ne_zero_of_not_mem hmode ((escape1_eq_singleton_iff b mode).mp hlit)
  · obtain ⟨hb, rfl⟩ := (escape1_eq_pair_iff b c _).mp hpair
    exact toNat_xor_40_of_mem_controlChars hb
  · obtain ⟨b, -, hxb⟩ := (mem_escape_iff x m _).mp hx
    exact zdle_or_and_60_ne_zero_of_mem_escape1 hxb
  · obtain ⟨hpair, hsecond⟩ := escape1_all8Bit_of_ge (b := b) (by omega)
    have hxor := toNat_xor_40 b
    exact ⟨_, hpair, hsecond, by omega⟩
  · exact ⟨escape1_of_ge_A0 escSet_minimal_subset_controlChars hb, escape1_of_ge_A0 (List.Subset.refl _) hb⟩

end Sys2Proof.Machine

/-! # The UNE unit -/

namespace Sys2Proof.Machine

/-- Settles O21: `exec_eq_answered` gives the whole next state. -/
theorem uneInitClearsPendOnly : Obligations.UneInitClearsPendOnly :=
  ⟨decode_encode .uneInit, rfl, exec_eq_answered .uneInit⟩

/-! ## The canonical second bytes -/

theorem canonical_iff : ∀ c : Byte, canonical c = true ↔ ((0x40 ≤ c.toNat ∧ c.toNat ≤ 0x5F) ∨ 0x80 ≤ c.toNat) := by
  decide

theorem canonical_xor_40_of_mem_escSet {b : Byte} {mode : EscMode} (h : b ∈ Params.escSet mode) :
    canonical (b ^^^ 0x40#8) = true :=
  (canonical_iff _).mpr (toNat_xor_40_of_mem_escSet h)

/-- The escape transform undoes itself. -/
theorem xor_40_involutive : Function.Involutive (fun b : Byte => b ^^^ 0x40#8) := fun b => by
  simp only [BitVec.xor_assoc, BitVec.xor_self, BitVec.xor_zero]

theorem xor_40_mem_all8Bit_of_canonical {c : Byte} (h : canonical c = true) :
    c ^^^ 0x40#8 ∈ Params.escSet .all8Bit := by
  have hrange := (canonical_iff c).mp h
  have hxor := toNat_xor_40 c
  rw [mem_escSet_all8Bit_iff]
  omega

theorem canonical_iff_second_byte (c : Byte) :
    canonical c = true ↔ ∃ b ∈ Params.escSet .all8Bit, c = b ^^^ 0x40#8 := by
  constructor
  · exact fun hc => ⟨_, xor_40_mem_all8Bit_of_canonical hc, (xor_40_involutive c).symm⟩
  · rintro ⟨b, hb, rfl⟩
    exact canonical_xor_40_of_mem_escSet hb

/-- Among all the bytes, the canonical ones are the set of All8Bit under the transform, in some order. -/
theorem filter_canonical_perm :
    ((byteRange 0x00 0xFF).filter canonical).Perm ((Params.escSet .all8Bit).map (· ^^^ 0x40#8)) := by
  refine (List.perm_ext_iff_of_nodup ((nodup_byteRange (by decide)).filter _)
    ((nodup_escSet _).map xor_40_involutive.injective)).mpr fun c => ?_
  have hbyte : c ∈ byteRange 0x00 0xFF := (mem_byteRange_iff (by decide) c).mpr (by omega)
  simp only [List.mem_filter, hbyte, true_and, canonical_iff_second_byte, List.mem_map, @eq_comm _ c]

/-- There are as many canonical bytes as bytes in the set, 160. -/
theorem countP_canonical : (List.range 256).countP (fun n => canonical (BitVec.ofNat 8 n)) = 160 := by
  calc (List.range 256).countP (fun n => canonical (BitVec.ofNat 8 n))
    _ = ((byteRange 0x00 0xFF).filter canonical).length := by
      rw [← List.countP_eq_length_filter, byteRange, List.countP_map, List.range_eq_range']
      rfl
    _ = (Params.escSet .all8Bit).length := filter_canonical_perm.length_eq.trans (List.length_map _)
    _ = 160 := rfl

/-- Settles O23: the transform takes ESC_SET(2) to the canonical bytes and back, and the lower sets lie in it. -/
theorem canonicalBytesAreTheEncodersSecondBytes : Obligations.CanonicalBytesAreTheEncodersSecondBytes :=
  ⟨canonical_iff, canonical_iff_second_byte, countP_canonical, fun _ _ => canonical_xor_40_of_mem_escSet, by decide⟩

/-! ## One byte given to the decoder -/

/-- Settles O22: in each case the command ends in one response, or in the escape error event. -/
theorem uneDecFollowsItsFourCases : Obligations.UneDecFollowsItsFourCases := by
  intro d
  have hword : encode (.uneDec d) = 0x5100#16 + d.setWidth 16 := wordB_eq_add _ d rfl
  refine ⟨hword ▸ decode_encode (.uneDec d), hword, fun s => ?_⟩
  change execUneDec d s = _
  rw [execUneDec]
  by_cases hp : s.block.csr.pend = false
  · rw [if_pos hp, if_pos hp]
    by_cases hd : d = 0x18#8
    · rw [if_pos hd, if_pos (show d = Params.zdle from hd)]
      rfl
    · rw [if_neg hd, if_neg (show d ≠ Params.zdle from hd)]
      rfl
  · rw [if_neg hp, if_neg hp]
    by_cases hc : canonical d = true
    · rw [if_pos hc, if_pos ((canonical_iff d).mp hc)]
      rfl
    · rw [if_neg hc, if_neg (mt (canonical_iff d).mpr hc)]
      rfl

theorem uneStep_introducer : uneStep false 0x18#8 = ⟨true, .ok, none⟩ := rfl

theorem uneStep_literal {d : Byte} (h : d ≠ 0x18#8) : uneStep false d = ⟨false, .ok, some d⟩ := by
  have hzdle : d ≠ Params.zdle := h
  simp [uneStep, hzdle]

theorem uneStep_canonical {d : Byte} (h : canonical d = true) : uneStep true d = ⟨false, .ok, some (d ^^^ 0x40#8)⟩ := by
  simp [uneStep, h, Params.escXor]

theorem uneStep_code_of_ne_escErr {p : Bool} {d : Byte} (h : (uneStep p d).code ≠ .escErr) :
    (uneStep p d).code = .ok := by
  cases p with
  | false => by_cases hd : d = Params.zdle <;> simp [uneStep, hd]
  | true => cases hc : canonical d <;> simp_all [uneStep]

/-! ## The round trip of the functions -/

/-- After the output for one byte, a literal or a pair, the decoder has given that byte back and no escape is open. -/
theorem unescapeFrom_escape1_append (n : Nat) (b : Byte) (mode : EscMode) (w : List Byte) :
    ∃ k, unescapeFrom n false (escape1 b mode ++ w) =
      { unescapeFrom k false w with bytes := b :: (unescapeFrom k false w).bytes } := by
  by_cases hb : b ∈ Params.escSet mode
  · refine ⟨n + 2, ?_⟩
    simp [escape1_of_mem hb, unescapeFrom, uneStep_introducer, uneStep_canonical (canonical_xor_40_of_mem_escSet hb)]
  · refine ⟨n + 1, ?_⟩
    simp [escape1_of_not_mem hb, unescapeFrom, uneStep_literal (ne_zdle_of_not_mem hb)]

/-- A stream whose bytes were escaped each in a mode of its own, decoded from any position on. -/
theorem unescapeFrom_flatMap_escape1 (l : List (Byte × EscMode)) (n : Nat) :
    unescapeFrom n false (l.flatMap (fun p => escape1 p.1 p.2)) = ⟨l.map Prod.fst, false, []⟩ := by
  induction l generalizing n with
  | nil => rfl
  | cons p l ih =>
    obtain ⟨k, hk⟩ := unescapeFrom_escape1_append n p.1 p.2 (l.flatMap (fun p => escape1 p.1 p.2))
    rw [List.flatMap_cons, hk, ih k, List.map_cons]

/-- A message in one mode is such a stream with the mode at every byte. -/
theorem unescape_escape (m : List Byte) (mode : EscMode) : unescape (escape m mode) = ⟨m, false, []⟩ := by
  have hstream := unescapeFrom_flatMap_escape1 (m.map (·, mode)) 0
  simpa [unescape, escape, List.flatMap_map, Function.comp_def] using hstream

/-- UNE.DEC neither reads nor writes MODE (45_escape_decoder.md R117). -/
theorem commandStep_uneDec_withMode (b : Block) (d : Byte) (mode : EscMode) :
    commandStep (b.withMode mode) (.uneDec d) =
      ((commandStep b (.uneDec d)).1.withMode mode, (commandStep b (.uneDec d)).2) := rfl

/-- Settles O25: `commandStep_uneDec_withMode`, and the mixed stream by `unescapeFrom_flatMap_escape1`. -/
theorem decoderDoesNotDependOnTheMode : Obligations.DecoderDoesNotDependOnTheMode := by
  refine ⟨fun d s mode => ⟨_, _, _, exec_eq_answered (.uneDec d) s, ?_⟩, fun l => unescapeFrom_flatMap_escape1 l 0⟩
  rw [exec_eq_answered, commandStep_uneDec_withMode]

/-! ## The commands compute `unescape` -/

theorem pend_blockAfter_uneDec (w : List Byte) (n : Nat) (b : Block) :
    (blockAfter b (w.map .uneDec)).csr.pend = (unescapeFrom n b.csr.pend w).pend := by
  rw [unescapeFrom_pend]
  exact reg_blockAfter_map (reg := fun b => b.csr.pend) (fun _ _ => rfl) w b

theorem commandStep_uneDec_uerr (b : Block) (d : Byte) :
    (commandStep b (.uneDec d)).1.csr.uerr = true ↔
      (b.csr.uerr = true ∨ (uneStep b.csr.pend d).code = .escErr) := by
  simp [commandStep]

theorem unescapeFrom_cons_errors (n : Nat) (p : Bool) (d : Byte) (w : List Byte) :
    (unescapeFrom n p (d :: w)).errors =
      if (uneStep p d).code = .escErr then n :: (unescapeFrom (n + 1) (uneStep p d).pend w).errors
      else (unescapeFrom (n + 1) (uneStep p d).pend w).errors := rfl

/-- UERR stands after the message when it stood before or some byte erred. -/
theorem uerr_blockAfter_uneDec (w : List Byte) (n : Nat) (b : Block) :
    (blockAfter b (w.map .uneDec)).csr.uerr = true ↔
      (b.csr.uerr = true ∨ (unescapeFrom n b.csr.pend w).errors ≠ []) := by
  induction w generalizing n b with
  | nil => simp [blockAfter, unescapeFrom]
  | cons d w ih =>
    rw [List.map_cons, blockAfter_cons, ih (n + 1), commandStep_uneDec_uerr, unescapeFrom_cons_errors]
    have hpend : (commandStep b (.uneDec d)).1.csr.pend = (uneStep b.csr.pend d).pend := rfl
    by_cases hd : (uneStep b.csr.pend d).code = .escErr <;> simp [hd, hpend]

/-- The errors of the fold are the positions of the ESCERR responses. -/
theorem unescapeFrom_errors_eq (w : List Byte) (n : Nat) (b : Block) :
    (unescapeFrom n b.csr.pend w).errors = (List.range' n w.length).filter fun k =>
      decide (((responsesTo b (w.map .uneDec))[k - n]?.map Response.code) = some .escErr) := by
  induction w generalizing n b with
  | nil => rfl
  | cons d w ih =>
    have htail : ∀ k ∈ List.range' (n + 1) w.length, k - n = k - (n + 1) + 1 := by
      intro k hk
      rw [List.mem_range'_1] at hk
      omega
    rw [unescapeFrom_cons_errors, List.map_cons, responsesTo_cons, List.length_cons, List.range'_succ, List.filter_cons,
      List.filter_congr fun k hk => by rw [htail k hk, List.getElem?_cons_succ], ← ih (n + 1)]
    simp [commandStep]

/-- Where the fold finds no error, every response is OK. -/
theorem responsesTo_uneDec_ok (w : List Byte) (n : Nat) (b : Block)
    (h : (unescapeFrom n b.csr.pend w).errors = []) : ∀ r ∈ responsesTo b (w.map .uneDec), r.code = .ok := by
  induction w generalizing n b with
  | nil => simp
  | cons d w ih =>
    rw [unescapeFrom_cons_errors] at h
    split at h
    case isTrue => cases h
    case isFalse hd =>
      rw [List.map_cons, responsesTo_cons]
      exact List.forall_mem_cons.mpr ⟨uneStep_code_of_ne_escErr hd, ih (n + 1) _ h⟩

/-- Settles O26: each part of `unescape`'s fold read off the block and the responses; UNE.INIT has cleared PEND and
kept UERR. -/
theorem decoderCommandsComputeUnescape : Obligations.DecoderCommandsComputeUnescape := by
  intro w s
  refine ⟨_, responsesTo (commandStep s.block .uneInit).1 (w.map .uneDec), runInputs_commandsOf_eq _ s, rfl, ?_, ?_,
    responsesTo_uneDec_bytes w 0 _, pend_blockAfter_uneDec w 0 _, ?_, uerr_blockAfter_uneDec w 0 _⟩
  · rw [uneMsg, responsesTo_cons]
    rfl
  · rw [responsesTo_length, List.length_map]
  · rw [List.range_eq_range']
    exact unescapeFrom_errors_eq w 0 (commandStep s.block .uneInit).1

/-- Settles O24: the functions by `unescape_escape`, the commands because they compute the same fold. -/
theorem decodingAnEscapedMessageGivesItBack : Obligations.DecodingAnEscapedMessageGivesItBack := by
  refine ⟨unescape_escape, fun m mode s => ?_⟩
  have htrip := unescape_escape m mode
  refine ⟨_, responsesTo (commandStep s.block .uneInit).1 ((escape m mode).map .uneDec), runInputs_commandsOf_eq _ s,
    rfl, ?_, responsesTo_uneDec_ok _ 0 _ (congrArg Unescaped.errors htrip), ?_, ?_⟩
  · rw [responsesTo_cons]
    rfl
  · exact (responsesTo_uneDec_bytes _ 0 _).trans (congrArg Unescaped.bytes htrip)
  · exact (pend_blockAfter_uneDec _ 0 _).trans (congrArg Unescaped.pend htrip)

end Sys2Proof.Machine

/-! # The response codes and the two error events -/

namespace Sys2Proof.Machine

/-! ## Of a command -/

/-- Only UNE.DEC passes on an outcome that may be an error (60_exceptions.md R127). -/
theorem commandStep_code_ok {i : Instr} (h : ∀ d, i ≠ .uneDec d) (b : Block) : (commandStep b i).2.code = .ok := by
  cases i with
  | uneDec d => exact absurd rfl (h d)
  | _ => rfl

theorem uneStep_malformed {d : Byte} (h : canonical d = false) : uneStep true d = ⟨false, .escErr, none⟩ := by
  simp [uneStep, h]

/-- A malformed escape is the escape error event (60_exceptions.md R126). -/
theorem commandStep_malformed {b : Block} {d : Byte} (hp : b.csr.pend = true) (hc : canonical d = false) :
    commandStep b (.uneDec d) =
      ({ b with csr := { b.csr with pend := false, uerr := true } }, ⟨.escErr, []⟩) := by
  simp [commandStep, hp, uneStep_malformed hc]

theorem commandStep_code_escErr_iff (b : Block) (i : Instr) :
    (commandStep b i).2.code = .escErr ↔ ∃ d, i = .uneDec d ∧ b.csr.pend = true ∧ canonical d = false := by
  cases i with
  | uneDec d => simp [commandStep, uneStep_code_escErr]
  | _ => simp [commandStep]

/-- ILLEGAL is no command's answer. -/
theorem commandStep_code_ok_of_ne_escErr {b : Block} {i : Instr} (h : (commandStep b i).2.code ≠ .escErr) :
    (commandStep b i).2.code = .ok := by
  cases i with
  | uneDec d => exact uneStep_code_of_ne_escErr h
  | _ => rfl

/-- Settles O40: `commandStep_code_ok`; with an escape open, UNE.DEC meets 0x00, which no escape ends in. -/
theorem onlyUneDecCanReturnAnError : Obligations.OnlyUneDecCanReturnAnError := by
  constructor
  · intro i s hi
    have hexec := exec_eq_answered i s
    rw [commandStep_code_ok hi] at hexec
    exact ⟨_, _, hexec⟩
  · have hmalformed : canonical 0x00#8 = false := by decide
    exact ⟨0x00#8, State.reset.setPend true, _, exec_of_commandStep (commandStep_malformed rfl hmalformed)⟩

/-! ## Of a word -/

/-- The three things a word can make of the block: the illegal command event, the escape error event, or a command's
effect with the code OK (60_exceptions.md R123). -/
theorem wordStep_cases (b : Block) (w : Word) :
    (wordReserved w = true ∧ wordStep b w = (b.withIll true, ⟨.illegal, []⟩)) ∨
    (∃ d, decode w = .instr (.uneDec d) ∧ b.csr.pend = true ∧ canonical d = false ∧
      wordStep b w = ({ b with csr := { b.csr with pend := false, uerr := true } }, ⟨.escErr, []⟩)) ∨
    (∃ i, decode w = .instr i ∧ wordStep b w = commandStep b i ∧ (commandStep b i).2.code = .ok) := by
  cases h : decode w with
  | reserved why => exact .inl ⟨wordReserved_of_decode_reserved h, wordStep_of_reserved h b⟩
  | instr i =>
    by_cases hcode : (commandStep b i).2.code = .escErr
    · obtain ⟨d, rfl, hp, hc⟩ := (commandStep_code_escErr_iff b i).mp hcode
      exact .inr (.inl ⟨d, rfl, hp, hc, (wordStep_of_instr h b).trans (commandStep_malformed hp hc)⟩)
    · exact .inr (.inr ⟨i, rfl, wordStep_of_instr h b, commandStep_code_ok_of_ne_escErr hcode⟩)

theorem wordStep_code_illegal_iff (b : Block) (w : Word) :
    (wordStep b w).2.code = .illegal ↔ wordReserved w = true := by
  rcases wordStep_cases b w with ⟨hw, h⟩ | ⟨d, hw, -, -, h⟩ | ⟨i, hw, h, hok⟩
  · simp [h, hw]
  · simp [h, wordReserved_of_decode_instr hw]
  · simp [h, hok, wordReserved_of_decode_instr hw]

theorem wordStep_code_escErr_iff (b : Block) (w : Word) :
    (wordStep b w).2.code = .escErr ↔
      ∃ d, decode w = .instr (.uneDec d) ∧ b.csr.pend = true ∧ canonical d = false := by
  cases h : decode w with
  | reserved why => simp [wordStep_of_reserved h]
  | instr i => simp [wordStep_of_instr h, commandStep_code_escErr_iff]

/-- The words of UNE.DEC are those with high byte 0x51, and their low byte is the operand (30_encoding.md R50). -/
theorem exists_uneDec_iff (w : Word) (P : Byte → Prop) :
    (∃ d, decode w = .instr (.uneDec d) ∧ P d) ↔ w.extractLsb' 8 8 = 0x51#8 ∧ P (w.extractLsb' 0 8) := by
  simp [← dataByte_uneDec_iff, HostInput.dataByte, and_assoc]

/-- All that the illegal command event changes (60_exceptions.md R125). -/
theorem wordStep_of_code_illegal {b : Block} {w : Word} (h : (wordStep b w).2.code = .illegal) :
    wordStep b w = (b.withIll true, ⟨.illegal, []⟩) := by
  obtain ⟨why, hw⟩ := (exists_reserved_iff w).mpr ((wordReserved_iff w).mp ((wordStep_code_illegal_iff b w).mp h))
  exact wordStep_of_reserved hw b

/-- All that the escape error event changes (60_exceptions.md R126). -/
theorem wordStep_of_code_escErr {b : Block} {w : Word} (h : (wordStep b w).2.code = .escErr) :
    wordStep b w = ({ b with csr := { b.csr with pend := false, uerr := true } }, ⟨.escErr, []⟩) := by
  obtain ⟨d, hw, hp, hc⟩ := (wordStep_code_escErr_iff b w).mp h
  rw [wordStep_of_instr hw, commandStep_malformed hp hc]

theorem wordStep_bytes_of_code_ne_ok {b : Block} {w : Word} (h : (wordStep b w).2.code ≠ .ok) :
    (wordStep b w).2.bytes = [] := by
  cases hcode : (wordStep b w).2.code with
  | ok => exact absurd hcode h
  | illegal => rw [wordStep_of_code_illegal hcode]
  | escErr => rw [wordStep_of_code_escErr hcode]

/-- A word that leaves ILL set found it set or reports it (60_exceptions.md R123). -/
theorem wordStep_ill_reported {b : Block} {w : Word} (h : (wordStep b w).1.csr.ill = true) :
    b.csr.ill = true ∨ (wordStep b w).2.code = .illegal := by
  rcases (inputBlock_ill_iff b (.command w)).mp h with ⟨_, ⟨rfl⟩, hw⟩ | ⟨hill, -⟩
  · exact .inr ((wordStep_code_illegal_iff b w).mpr hw)
  · exact .inl hill

/-- A word that leaves UERR set found it set or reports it (60_exceptions.md R123). -/
theorem wordStep_uerr_reported {b : Block} {w : Word} (h : (wordStep b w).1.csr.uerr = true) :
    b.csr.uerr = true ∨ (wordStep b w).2.code = .escErr := by
  rcases (inputBlock_uerr_iff b (.command w)).mp h with ⟨d, hw, hp, hc⟩ | ⟨huerr, -⟩
  · have hdecode := (eq_uneDecWord_iff w d).mp (HostInput.command.inj hw)
    exact .inr ((wordStep_code_escErr_iff b w).mpr ⟨d, hdecode, hp, hc⟩)
  · exact .inl huerr

/-- Settles O41: the causes by `wordStep_code_illegal_iff` and `wordStep_code_escErr_iff`, the effects by
`wordStep_of_code_illegal` and `wordStep_of_code_escErr`; a word answered OK reports neither bit, so it sets neither. -/
theorem errorsAreReportedTwice : Obligations.ErrorsAreReportedTwice := by
  refine ⟨⟨rfl, rfl, rfl, fun c => by cases c <;> decide⟩, fun w s => ?_⟩
  refine ⟨_, _, _, executeWord_eq_answered w s, wordStep_code_illegal_iff _ w,
    (wordStep_code_escErr_iff _ w).trans (exists_uneDec_iff w _),
    fun h => congrArg Prod.fst (wordStep_of_code_illegal h), fun h => congrArg Prod.fst (wordStep_of_code_escErr h),
    fun hok hill => ?_, fun hok huerr => ?_, wordStep_bytes_of_code_ne_ok⟩
  · exact (wordStep_ill_reported hill).resolve_right (by simp [hok])
  · exact (wordStep_uerr_reported huerr).resolve_right (by simp [hok])

/-! ## The invariant -/

theorem Response.wellShaped_of_ok {r : Response} (hcode : r.code = .ok) (hlength : r.bytes.length ∈ [0, 1, 2, 4]) :
    r.wellShaped = true := by
  simpa [wellShaped, hcode, or_assoc] using hlength

/-- No command's response has three bytes, or more than four (20_memory.md R35). -/
theorem responseLengths_subset (i : Instr) : responseLengths i ⊆ [0, 1, 2, 4] := by
  cases i <;> simp [responseLengths]

theorem wordStep_wellShaped (b : Block) (w : Word) : (wordStep b w).2.wellShaped = true := by
  rcases wordStep_cases b w with ⟨-, h⟩ | ⟨d, -, -, -, h⟩ | ⟨i, -, h, hok⟩
  · rw [h]
    rfl
  · rw [h]
    rfl
  · rw [h]
    exact Response.wellShaped_of_ok hok (responseLengths_subset i (commandStep_length_mem b i))

/-- A response with a code is among those given when it stood there or is the one given last. -/
theorem exists_code_append {rs : List Response} {r : Response} {code : RespCode}
    (h : (∃ q ∈ rs, q.code = code) ∨ r.code = code) : ∃ q ∈ rs ++ [r], q.code = code := by
  simpa [or_and_right, exists_or] using h

/-- The invariant does not speak of the inputs. -/
theorem Inv.withInputs {s : State} (h : Inv s) (ins : List HostInput) : Inv { s with inputs := ins } :=
  ⟨h.shapes, h.illReported, h.uerrReported⟩

/-- A reset leaves no sticky bit to be reported. -/
theorem Inv.resetBlock {s : State} (h : Inv s) : Inv s.resetBlock :=
  ⟨h.shapes, (nomatch ·), (nomatch ·)⟩

/-- A word's answer keeps the record: its shape is possible, and a sticky bit it sets it reports itself. -/
theorem Inv.answered_wordStep {s : State} (h : Inv s) (w : Word) :
    Inv (s.answered (wordStep s.block w).1 (wordStep s.block w).2.code (wordStep s.block w).2.bytes) where
  shapes := List.forall_mem_append.mpr ⟨h.shapes, List.forall_mem_singleton.mpr (wordStep_wellShaped s.block w)⟩
  illReported hill := exists_code_append ((wordStep_ill_reported hill).imp_left h.illReported)
  uerrReported huerr := exists_code_append ((wordStep_uerr_reported huerr).imp_left h.uerrReported)

/-- Settles O45: a step idles, resets the block, or appends a word's answer. -/
theorem everyStepKeepsTheReports : Obligations.EveryStepKeepsTheReports := by
  intro s t hinv hstep
  rcases step_cases hstep with ⟨-, rfl⟩ | ⟨rest, -, rfl⟩ | ⟨w, rest, -, hword⟩
  · exact hinv
  · exact hinv.resetBlock.withInputs rest
  · rw [executeWord_eq_answered] at hword
    cases hword
    exact (hinv.withInputs rest).answered_wordStep w

end Sys2Proof.Machine

/-! # Reset, and the end of every run -/

namespace Sys2Proof.Machine

/-- Settles O1: the reads by `exec_of_commandStep`; C32.RD inverts all ones to zero bytes. -/
theorem resetLeavesTheResetState : Obligations.ResetLeavesTheResetState := by
  have hc32 : commandStep Block.reset .c32Rd = (Block.reset, ⟨.ok, [0x00#8, 0x00#8, 0x00#8, 0x00#8]⟩) := by decide
  exact ⟨rfl, rfl, rfl, exec_of_commandStep rfl, exec_of_commandStep (commandStep_c16Rd Block.reset),
    exec_of_commandStep hc32, exec_of_commandStep rfl⟩

/-- Settles O34: `step_hardwareReset` and `step_idle`. -/
theorem stepOnAResetOrOnNothing : Obligations.StepOnAResetOrOnNothing :=
  ⟨step_hardwareReset, fun _ => step_idle rfl⟩

/-- Settles O46: no response was given, and neither sticky bit is set. -/
theorem resetMeetsTheReports : Obligations.ResetMeetsTheReports where
  shapes := List.forall_mem_nil _
  illReported hill := nomatch hill
  uerrReported huerr := nomatch huerr

/-- The block cannot hang, wait or refuse (70_reset_and_hazards.md R155). -/
theorem exists_step_next (s : State) : ∃ t, step s = .next t ∧ t.inputs = s.inputs.tail := by
  obtain ⟨block, inputs, responses⟩ := s
  cases inputs with
  | nil => exact ⟨_, step_idle rfl, rfl⟩
  | cons x rest => exact ⟨_, step_input x rest ⟨block, [], responses⟩, rfl⟩

/-- A run with a step for each input held: `runInputs_eq` with no input left for afterwards. -/
theorem run_length_inputs (s : State) :
    run s.inputs.length s = .next { block := s.inputs.foldl inputBlock s.block, inputs := []
                                    responses := s.responses ++ inputResponses s.block s.inputs } := by
  have hrun := runInputs_eq s.inputs { s with inputs := [] }
  rwa [runInputs, State.given, List.append_nil] at hrun

/-- Each command word is answered once, and a hardware reset is not answered (70_reset_and_hazards.md R141, R155). -/
theorem length_inputResponses (b : Block) (xs : List HostInput) :
    (inputResponses b xs).length = xs.countP (fun x => decide (x ≠ .hardwareReset)) := by
  induction xs generalizing b with
  | nil => rfl
  | cons x xs ih => cases x <;> simp [inputResponses, ih]

/-- Settles O44: one step by `exists_step_next`; a whole run by `run_length_inputs`, its responses counted by
`length_inputResponses`. -/
theorem everyStepCompletesAndEveryRunEnds : Obligations.EveryStepCompletesAndEveryRunEnds :=
  ⟨exists_step_next, fun s => ⟨_, run_length_inputs s, rfl, _, rfl, length_inputResponses s.block s.inputs⟩⟩

end Sys2Proof.Machine
